-- ==== Sys2Proof/Word.lean ====
section
/-! DEFINITION. Bytes, words, and the fixed-length byte sequences of spec/00_scope.md R8, R9. -/

namespace Sys2Proof

/-- `u8`: one byte of a sequence or a buffer (00_scope.md R8, R9). -/
abbrev Byte := BitVec 8

/-- `u16`: the half word of the normalizer's contract (42_normalizer.md R123). -/
abbrev Half := BitVec 16

/-- `u32`: the word the block transform computes on (00_scope.md R10). -/
abbrev Word := BitVec 32

/-- `u(LEN_W)`, LEN_W = 32: a length held in a register (00_scope.md R6, R10). -/
abbrev Len := BitVec 32

/-- A block: 8 bytes, `b0` the first on the wire (00_scope.md R9). -/
structure Block where
  b0 : Byte
  b1 : Byte
  b2 : Byte
  b3 : Byte
  b4 : Byte
  b5 : Byte
  b6 : Byte
  b7 : Byte
  deriving DecidableEq, Repr, Inhabited

/-- A key: 16 bytes, `k0` the first on the wire (00_scope.md R9, 10_state.md R25). -/
structure Key where
  k0 : Byte
  k1 : Byte
  k2 : Byte
  k3 : Byte
  k4 : Byte
  k5 : Byte
  k6 : Byte
  k7 : Byte
  k8 : Byte
  k9 : Byte
  k10 : Byte
  k11 : Byte
  k12 : Byte
  k13 : Byte
  k14 : Byte
  k15 : Byte
  deriving DecidableEq, Repr, Inhabited

/-- `ZERO8`: the block of eight 0x00 bytes (00_scope.md R9). -/
def Block.zero : Block := ⟨0, 0, 0, 0, 0, 0, 0, 0⟩

/-- The key of sixteen 0x00 bytes. -/
def Key.zero : Key := ⟨0, 0, 0, 0, 0, 0, 0, 0, 0, 0, 0, 0, 0, 0, 0, 0⟩

/-- The four words `a`, `b`, `c`, `d` of a key (42_normalizer.md R124). -/
structure KeyWords where
  a : Word
  b : Word
  c : Word
  d : Word
  deriving DecidableEq, Repr

end Sys2Proof
end

