-- ==== Sys2Proof/Config.lean ====
section
/-! DEFINITION. What one core fixes (00_scope.md R6) and the values the spec leaves open. The free values are
constants without a body: nothing can be proved about them, so a statement that mentions them holds for every value. -/

namespace Sys2Proof

/-- The two values of the parameter `OVERRUN_STATUS` (00_scope.md R6, 92_eei_decisions.md D8). -/
inductive OverrunStatus where
  /-- the default -/
  | integrityCheckFailed
  /-- the alternative -/
  | invalidLength
  deriving DecidableEq, Repr

/-- The parameters of one core that the spec leaves to the model (00_scope.md R6, log 15). -/
structure Params where
  overrun : OverrunStatus
  deriving DecidableEq, Repr

/-- The parameters at the values this hardware takes (00_scope.md R6). -/
def Params.default : Params := ⟨.integrityCheckFailed⟩

/-- PARAMETER `TEA_LATENCY`, open and finite: the time of one block transform (00_scope.md R6, 70_reset_and_hazards.md
R246). No step reads a latency, as no rule depends on one (log 20). -/
opaque Config.teaLatency : Nat

/-- PARAMETER `CHAIN_LATENCY`, open and finite: the time of one chaining step (00_scope.md R6, 70_reset_and_hazards.md
R246, log 20). -/
opaque Config.chainLatency : Nat

/-- PARAMETER `MSG_LATENCY`, open and finite: the time of a message command, by its length (00_scope.md R6,
70_reset_and_hazards.md R246, log 20). -/
opaque Config.msgLatency : Nat → Nat

/-- FREE VALUE: how many of its four draws a message encryption had taken when reset abandoned it
(70_reset_and_hazards.md R232, 44_message_codec.md R154, log 7). -/
opaque Config.freeDraws : Nat → Fin 5

/-- FREE VALUE: the byte the RNG port answers at draw number `n` when no script line fixes it (20_memory.md R56,
93_implementation_defined.md U1, log 8). -/
opaque Config.rngByte : Nat → Byte

/-- FREE VALUE: the content of an `OUT` byte the spec leaves unspecified (44_message_codec.md R178,
70_reset_and_hazards.md R232, log 6, log 7). -/
opaque Config.freeByte : Nat → Byte

/-- FREE VALUE: the content of `PREV_OUT`, `PREV_MIX` or `BLK` after a message command (10_state.md R43, log 4, log 5). -/
opaque Config.freeBlock : Nat → Block

/-- FREE VALUE: the content of `BLK_COUNT` after a message command (10_state.md R43, log 5). -/
opaque Config.freeLen : Nat → Len

end Sys2Proof
end

