-- ==== Sys2Proof/HostSyntax.lean ====
section
/-! DEFINITION. What the agents around the core can do (10_state.md R20): the register names, the values a host access
moves, the host's actions, and the moves of host, core, RNG and reset input. Types only. -/

namespace Sys2Proof

/-- The ten registers of 10_state.md R21, in the order of their numbers. -/
inductive Reg where
  | cmd
  | status
  | key
  | blk
  | prevOut
  | prevMix
  | blkCount
  | inLen
  | outCap
  | resLen
  deriving DecidableEq, Repr

/-- The value of one whole register, of the register's own kind and width (10_state.md R21, R22). -/
inductive RegValue where
  /-- an 8-bit register: `CMD`, `STATUS` -/
  | byte (v : BitVec 8)
  /-- a 32-bit register: `BLK_COUNT`, `IN_LEN`, `OUT_CAP`, `RES_LEN` -/
  | len (v : Len)
  /-- an 8-byte register: `BLK`, `PREV_OUT`, `PREV_MIX` -/
  | block (v : Block)
  /-- the 16-byte register `KEY` -/
  | key (v : Key)
  deriving DecidableEq, Repr

/-- One thing the host does (10_state.md R22, 20_memory.md R50, 30_encoding.md R76). -/
inductive HostAction where
  /-- write a whole register, named by its number; a write of `CMD` starts a command -/
  | writeReg (no : BitVec 8) (v : RegValue)
  /-- read a whole register, named by its number -/
  | readReg (no : BitVec 8)
  /-- write bytes of `IN` from an offset on -/
  | writeIn (off : Nat) (bytes : List Byte)
  /-- read `n` bytes of `IN` -/
  | readIn (off n : Nat)
  /-- write bytes of `OUT` from an offset on -/
  | writeOut (off : Nat) (bytes : List Byte)
  /-- read `n` bytes of `OUT` -/
  | readOut (off n : Nat)
  /-- provide buffers `IN` and `OUT` that overlap (20_memory.md R53) -/
  | shareBuffers
  deriving DecidableEq, Repr

/-- What one host read answered: a register, or bytes of a buffer. -/
inductive HostValue where
  | reg (v : RegValue)
  | bytes (bs : List Byte)
  deriving DecidableEq, Repr

/-- One move of an agent. A list of moves says which agent moves next (log 9). -/
inductive Move where
  /-- the host acts -/
  | host (a : HostAction)
  /-- the host reads `STATUS` until `BUSY = 0` and `DONE = 1` (30_encoding.md R76, `WAIT`) -/
  | wait
  /-- the core takes its step: the running command, if any, runs to its end (70_reset_and_hazards.md R236) -/
  | core
  /-- the RNG settles the bytes it answers to the next draws (30_encoding.md R76, `RNG`) -/
  | rng (bytes : List Byte)
  /-- the reset input is asserted (70_reset_and_hazards.md R230, R232) -/
  | reset
  deriving DecidableEq, Repr

end Sys2Proof
end

