-- ==== Sys2Proof/Machine/State.lean ====
section
/-! DEFINITION. The state of the machine as plain data (10_state.md), what makes a step stop (60_exceptions.md R208), and
the state after reset (10_state.md R39). -/

namespace Sys2Proof.Machine

open Sys2Proof

/-- A buffer: its bytes as (offset, byte) cells, offsets strictly rising, no cell holding what an unlisted offset reads
as (20_memory.md R50). -/
abbrev Memory := List Host.Cell

/-- The chaining state: three registers (43_chaining.md R130). -/
structure Chain where
  /-- register 0x04, O_(i-1) (10_state.md R27) -/
  prevOut : Block
  /-- register 0x05, M_(i-1) (10_state.md R28) -/
  prevMix : Block
  /-- register 0x06, the index of the last block processed (10_state.md R29) -/
  blkCount : Len
  deriving DecidableEq, Repr

/-- The zero state of the chain (43_chaining.md R130). -/
def Chain.zero : Chain := ⟨Block.zero, Block.zero, 0⟩

/-- The direction of the block transform (10_state.md R35). -/
inductive Direction where
  | encrypt
  | decrypt
  deriving DecidableEq, Repr

/-- The half-words and the accumulator of the round pipeline (10_state.md R35). -/
structure Lanes where
  y : Word
  z : Word
  sum : Word
  deriving DecidableEq, Repr

/-- What the block transform holds while it runs (10_state.md R35). -/
structure BtState where
  lanes : Lanes
  /-- the round counter, 0 to 16 -/
  round : Nat
  dir : Direction
  deriving DecidableEq, Repr

/-- The four drawn bytes of a layout (44_message_codec.md R154). -/
structure Draws where
  hdr : Byte
  fill : Byte
  a : Byte
  b : Byte
  deriving DecidableEq, Repr

/-- What the message codec holds while it runs (10_state.md R36). -/
structure McState where
  /-- the padding-fill count N, 0 to 7 -/
  fillCount : Nat
  /-- the total: T on encrypt, Lout on decrypt -/
  total : Nat
  /-- the offset of the next 8-byte block -/
  cursor : Nat
  /-- the drawn bytes, encrypt only -/
  draws : Option Draws
  /-- the first decrypted block, decrypt only -/
  firstBlock : Option Block
  /-- the zero-run accumulator: no non-zero trailer byte seen, decrypt only -/
  zeroRun : Bool
  deriving DecidableEq, Repr

/-- What `BLK` holds (10_state.md R26, R38, R43, 90_conflicts.md C10). -/
inductive BlkContent where
  /-- nothing has written it since reset: the model's reset value (log 1, log 2) -/
  | resetValue
  /-- what the host or a block command wrote -/
  | value
  /-- no value: a message command ended and nothing has written it since; a read faults -/
  | nothing
  deriving DecidableEq, Repr

/-- Which of the four registers that reset leaves unwritten hold a value by now (10_state.md R38, R43). -/
structure Written where
  key : Bool
  blk : BlkContent
  inLen : Bool
  outCap : Bool
  deriving DecidableEq, Repr

/-- The status codes (60_exceptions.md R201). -/
inductive StatusCode where
  | ok
  | invalidInput
  | invalidLength
  | bufferTooSmall
  | integrityCheckFailed
  | illegalCommand
  deriving DecidableEq, Repr

/-- The machine. -/
structure State where
  /-- register 0x01 (10_state.md R24) -/
  status : BitVec 8
  /-- register 0x02 (10_state.md R25) -/
  key : Key
  /-- register 0x03 (10_state.md R26) -/
  blk : Block
  /-- registers 0x04 to 0x06 (10_state.md R27, R28, R29) -/
  chain : Chain
  /-- register 0x07 (10_state.md R30) -/
  inLen : Len
  /-- register 0x08 (10_state.md R31) -/
  outCap : Len
  /-- register 0x09 (10_state.md R32) -/
  resLen : Len
  /-- which registers hold a value (10_state.md R38) -/
  written : Written
  /-- the command between its `CMD` write and its end (10_state.md R23, 70_reset_and_hazards.md R235) -/
  running : Option (BitVec 8)
  /-- the block transform's hidden state, none when idle (10_state.md R35, R39, log 19) -/
  bt : Option BtState
  /-- the message codec's hidden state, none when idle (10_state.md R36, R39, log 19) -/
  mc : Option McState
  /-- the input buffer `IN` (20_memory.md R51) -/
  inBuf : Memory
  /-- the output buffer `OUT` (20_memory.md R52) -/
  outBuf : Memory
  /-- bytes the RNG has settled for the next draws (30_encoding.md R76, log 8) -/
  rngQueue : List Byte
  /-- RNG draws taken so far (log 25) -/
  rngDrawn : Nat
  /-- free values taken so far (log 25) -/
  fresh : Nat
  /-- the moves still to come, the next one first (log 9) -/
  pending : List Move
  /-- what the host has read, the latest first (log 12) -/
  observed : List HostValue
  /-- the parameters of this core (00_scope.md R6, log 15) -/
  cfg : Params
  deriving DecidableEq, Repr

/-- The machine right after power-on, which acts as a reset (10_state.md R39, 70_reset_and_hazards.md R230, R231). The
spec gives `KEY`, `BLK`, `IN_LEN` and `OUT_CAP` no value here: theirs are the model's (DESIGN CHOICE, log 1), and
`written` says that they hold none of the host's. -/
def State.reset : State where
  status := 0x00
  key := Key.zero
  blk := Block.zero
  chain := Chain.zero
  inLen := 0
  outCap := 0
  resLen := 0
  written := ⟨false, .resetValue, false, false⟩
  running := none
  bt := none
  mc := none
  inBuf := []
  outBuf := []
  rngQueue := []
  rngDrawn := 0
  fresh := 0
  pending := []
  observed := []
  cfg := Params.default

/-- Why the machine stops with a fault. -/
inductive Fault where
  /-- A host access to `IN` or `OUT` reaches an offset of 2^LEN_W or more, which no buffer has (20_memory.md R50).
  Raised by the host's buffer actions in Machine/Host.lean. Safe: the model stops where a core has no such address. -/
  | noSuchOffset
  /-- `UNWRITTEN_REGISTER`: a block command or a host read reaches `BLK` while it holds no value, after a message command
  (10_state.md R38, R43, 60_exceptions.md R208, 90_conflicts.md C10). Raised by `withBlk` and `hostReadReg`. Safe: the
  model stops where a core would use an unspecified value. -/
  | unwrittenRegister (r : Reg)
  deriving DecidableEq, Repr

/-- Why a host action has no meaning (60_exceptions.md R208). No command is ever refused. -/
inductive Refusal where
  /-- An instruction without a meaning, by its mnemonic. Raised by no arm of `exec`. Safe. -/
  | notModelled (mnemonic : String)
  /-- An access to a register number 0x0A to 0xFF (10_state.md R22). Raised by the host's register actions. Safe. -/
  | reservedRegister (no : BitVec 8)
  /-- A read of `CMD` (10_state.md R22). Raised by the host's register read. Safe. -/
  | writeOnlyRegister
  /-- A write to `STATUS`, `PREV_OUT`, `PREV_MIX`, `BLK_COUNT` or `RES_LEN` (10_state.md R22). Raised by the host's
  register write. Safe. -/
  | readOnlyRegister (r : Reg)
  /-- A write that does not supply one whole register of its own width (10_state.md R22). Raised by the host's register
  write. Safe. -/
  | partialAccess (r : Reg)
  /-- A host access other than a `STATUS` read while `BUSY = 1` (70_reset_and_hazards.md R237). Raised by every host
  action. Safe. -/
  | accessWhileBusy
  /-- The host provides buffers that overlap (20_memory.md R53). Raised by `HostAction.shareBuffers`. Safe. -/
  | overlappingBuffers
  deriving DecidableEq, Repr

end Sys2Proof.Machine
end

