-- ==== Sys2Proof/Machine/Constants.lean ====
section
/-! DEFINITION. The named constants of 00_scope.md R6 and R7. -/

namespace Sys2Proof.Machine

open Sys2Proof

/-- `ROUNDS` (00_scope.md R7) -/
def rounds : Nat := 16

/-- `DELTA` (00_scope.md R7) -/
def delta : Word := 0x9E3779B9

/-- `SUM_DEC0` = 16 × DELTA mod 2^32 (00_scope.md R7) -/
def sumDec0 : Word := 0xE3779B90

/-- `SHL` (00_scope.md R7) -/
def shl : Nat := 4

/-- `SHR` (00_scope.md R7) -/
def shr : Nat := 5

/-- `BLOCK_BYTES` (00_scope.md R7) -/
def blockBytes : Nat := 8

/-- `KEY_BYTES` (00_scope.md R7) -/
def keyBytes : Nat := 16

/-- `HDR_MASK` (00_scope.md R7) -/
def hdrMask : Byte := 0x07

/-- `EXTRA_RANDOM` (00_scope.md R7) -/
def extraRandom : Nat := 2

/-- `TRAILER_ZEROS` (00_scope.md R7) -/
def trailerZeros : Nat := 7

/-- `OVERHEAD` = 1 + 2 + 7 (00_scope.md R7) -/
def overhead : Nat := 10

/-- `MIN_CT` (00_scope.md R7) -/
def minCt : Nat := 16

/-- 2^LEN_W, LEN_W = 32: the number of offsets of a buffer (00_scope.md R6, 20_memory.md R50) -/
def lenSpace : Nat := 2 ^ 32

/-- `L_MAX` = 2^LEN_W − 18, the largest plaintext length (00_scope.md R6) -/
def lMax : Nat := 0xFFFFFFEE

/-- `C_MAX` = 2^LEN_W − 8, the largest multiple of 8 that a length register holds (00_scope.md R6) -/
def cMax : Nat := 0xFFFFFFF8

/-- What an offset of `IN` or `OUT` that nothing has written reads as (DESIGN CHOICE, log 3). -/
def unlistedByte : Byte := 0x00

end Sys2Proof.Machine
end

