-- ==== Sys2Proof/Machine/Normalizer.lean ====
section
/-! DEFINITION. The byte-order normalizer: wire order is most significant byte first (42_normalizer.md R120 to R126). -/

namespace Sys2Proof.Machine

open Sys2Proof

/-- Four bytes in wire order to a word (42_normalizer.md R121). -/
def wire32ToWord (b0 b1 b2 b3 : Byte) : Word :=
  (b0.zeroExtend 32 <<< 24) ||| (b1.zeroExtend 32 <<< 16) ||| (b2.zeroExtend 32 <<< 8) ||| b3.zeroExtend 32

/-- A word to its four bytes in wire order, byte 0 first (42_normalizer.md R121). -/
def wordToWire32 (w : Word) : Byte × Byte × Byte × Byte :=
  (w.extractLsb' 24 8, w.extractLsb' 16 8, w.extractLsb' 8 8, w.extractLsb' 0 8)

/-- Two bytes in wire order to a half word; no command reaches it (42_normalizer.md R123, R127). -/
def wire16ToHalf (b0 b1 : Byte) : Half := (b0.zeroExtend 16 <<< 8) ||| b1.zeroExtend 16

/-- A half word to its two bytes in wire order; no command reaches it (42_normalizer.md R123, R127). -/
def halfToWire16 (h : Half) : Byte × Byte := (h.extractLsb' 8 8, h.extractLsb' 0 8)

/-- The words `y`, `z` of a block (42_normalizer.md R124). -/
def blockWords (B : Block) : Word × Word :=
  (wire32ToWord B.b0 B.b1 B.b2 B.b3, wire32ToWord B.b4 B.b5 B.b6 B.b7)

/-- The words `a`, `b`, `c`, `d` of a key (42_normalizer.md R124). -/
def keyWords (K : Key) : KeyWords where
  a := wire32ToWord K.k0 K.k1 K.k2 K.k3
  b := wire32ToWord K.k4 K.k5 K.k6 K.k7
  c := wire32ToWord K.k8 K.k9 K.k10 K.k11
  d := wire32ToWord K.k12 K.k13 K.k14 K.k15

/-- The block of two words (42_normalizer.md R125). -/
def wordsBlock (y z : Word) : Block :=
  let (y0, y1, y2, y3) := wordToWire32 y
  let (z0, z1, z2, z3) := wordToWire32 z
  ⟨y0, y1, y2, y3, z0, z1, z2, z3⟩

end Sys2Proof.Machine
end

