-- ==== Sys2Proof/Syntax.lean ====
section
/-! DEFINITION. The seven commands of 30_encoding.md R71, one constructor per row of spec/opcode_table.json. -/

namespace Sys2Proof

/-- A command. No command has an operand field: every operand is in a register the command fixes, in `IN`, or a draw
(30_encoding.md R74). -/
inductive Instr where
  /-- TEA_ENC 0x01: encrypt the working block (41_block_transform.md R104) -/
  | teaEnc
  /-- TEA_DEC 0x02: decrypt the working block (41_block_transform.md R105) -/
  | teaDec
  /-- CHAIN_INIT 0x10: zero the chaining state (43_chaining.md R131) -/
  | chainInit
  /-- CHAIN_ENC 0x11: one chained encrypt step on the working block (43_chaining.md R132) -/
  | chainEnc
  /-- CHAIN_DEC 0x12: one chained decrypt step on the working block (43_chaining.md R134) -/
  | chainDec
  /-- MSG_ENC 0x20: encrypt a message from `IN` to `OUT` (44_message_codec.md R150) -/
  | msgEnc
  /-- MSG_DEC 0x21: decrypt a message from `IN` to `OUT` (44_message_codec.md R151) -/
  | msgDec
  deriving DecidableEq, Repr

end Sys2Proof
end

