-- ==== Sys2Proof/WellFormed.lean ====
section
/-! DEFINITION. The checks on raw input: command words (30_encoding.md R70 to R73) and host accesses (10_state.md R22).
An `Instr` has no field, so every `Instr` is well formed; what can be ill formed is the word written to `CMD`. -/

namespace Sys2Proof

/-- An instruction has no operand, so no check can fail on it (30_encoding.md R74). -/
def Instr.wellFormed : Instr → Bool
  | .teaEnc => true
  | .teaDec => true
  | .chainInit => true
  | .chainEnc => true
  | .chainDec => true
  | .msgEnc => true
  | .msgDec => true

/-- The field `UNIT` of a command word (30_encoding.md R70). -/
def unitField (w : BitVec 8) : BitVec 4 := w.extractLsb' 4 4

/-- The field `FUNC` of a command word (30_encoding.md R70). -/
def funcField (w : BitVec 8) : BitVec 4 := w.extractLsb' 0 4

/-- The unit exists: 0x0 block transform, 0x1 chaining engine, 0x2 message codec (30_encoding.md R70). -/
def unitDefined (u : BitVec 4) : Bool := u == 0 || u == 1 || u == 2

/-- The unit has the function (30_encoding.md R71). -/
def funcDefined (u f : BitVec 4) : Bool :=
  (u == 0 && (f == 1 || f == 2)) || (u == 1 && (f == 0 || f == 1 || f == 2)) || (u == 2 && (f == 0 || f == 1))

/-- The word spells a command: every other value is reserved (30_encoding.md R72). -/
def commandDefined (w : BitVec 8) : Bool := unitDefined (unitField w) && funcDefined (unitField w) (funcField w)

/-- The register number is one of 0x00 to 0x09 (10_state.md R21, R22). -/
def regNumberDefined (no : BitVec 8) : Bool := no.toNat ≤ 9

/-- A host read of the register has a meaning: every register but `CMD` (10_state.md R22). -/
def Reg.readable : Reg → Bool
  | .cmd => false
  | .status | .key | .blk | .prevOut | .prevMix | .blkCount | .inLen | .outCap | .resLen => true

/-- A host write to the register has a meaning (10_state.md R21, R22). -/
def Reg.writable : Reg → Bool
  | .cmd | .key | .blk | .inLen | .outCap => true
  | .status | .prevOut | .prevMix | .blkCount | .resLen => false

/-- The value has the register's own kind and width: an access moves one whole register (10_state.md R21, R22). -/
def Reg.takes : Reg → RegValue → Bool
  | .cmd, .byte _ | .status, .byte _ => true
  | .key, .key _ => true
  | .blk, .block _ | .prevOut, .block _ | .prevMix, .block _ => true
  | .blkCount, .len _ | .inLen, .len _ | .outCap, .len _ | .resLen, .len _ => true
  | _, _ => false

end Sys2Proof
end

