-- ==== Sys2Proof/Decode.lean ====
section
/-! DEFINITION. The decoder and the encoder of command words (30_encoding.md R70 to R75), the register numbers
(10_state.md R21), and the table's numbering of an instruction's bits. -/

namespace Sys2Proof

/-- Why bytes spell no command. -/
inductive DecodeError where
  /-- there is no byte -/
  | noByte
  /-- `UNIT` is 0x3 to 0xF (30_encoding.md R70, R72) -/
  | reservedUnit (u : BitVec 4)
  /-- the unit exists and has no such function (30_encoding.md R72) -/
  | reservedFunc (u f : BitVec 4)
  deriving DecidableEq, Repr

/-- The decoder of one command word: `UNIT` in bits 7:4, `FUNC` in bits 3:0 (30_encoding.md R70, R71). -/
def decodeWord (w : BitVec 8) : Except DecodeError Instr :=
  let u := unitField w
  let f := funcField w
  if u = 0x0#4 then
    if f = 0x1#4 then .ok .teaEnc
    else if f = 0x2#4 then .ok .teaDec
    else .error (.reservedFunc u f)
  else if u = 0x1#4 then
    if f = 0x0#4 then .ok .chainInit
    else if f = 0x1#4 then .ok .chainEnc
    else if f = 0x2#4 then .ok .chainDec
    else .error (.reservedFunc u f)
  else if u = 0x2#4 then
    if f = 0x0#4 then .ok .msgEnc
    else if f = 0x1#4 then .ok .msgDec
    else .error (.reservedFunc u f)
  else .error (.reservedUnit u)

/-- The decoder of a byte sequence: the first command and the bytes after it. Every command is exactly one byte long
(30_encoding.md R70). -/
def decodeBytes : List Byte → Except DecodeError (Instr × List Byte)
  | [] => .error .noByte
  | w :: rest =>
    match decodeWord w with
    | .ok i => .ok (i, rest)
    | .error e => .error e

/-- The code of a command, from its `UNIT` and `FUNC` (30_encoding.md R71). -/
def encode : Instr → BitVec 8
  | .teaEnc => 0x0#4 ++ 0x1#4
  | .teaDec => 0x0#4 ++ 0x2#4
  | .chainInit => 0x1#4 ++ 0x0#4
  | .chainEnc => 0x1#4 ++ 0x1#4
  | .chainDec => 0x1#4 ++ 0x2#4
  | .msgEnc => 0x2#4 ++ 0x0#4
  | .msgDec => 0x2#4 ++ 0x1#4

/-- The bytes of a command: its one word. -/
def encodeBytes (i : Instr) : List Byte := [encode i]

/-- `n` bytes of a number, the least significant first: the opcode table's numbering of bits. -/
def lowBytes : Nat → Nat → List Byte
  | 0, _ => []
  | n + 1, w => BitVec.ofNat 8 w :: lowBytes n (w / 256)

/-- The bytes of an instruction whose bits are `w` in the table's numbering: `nbits` of them in whole bytes, and at
least the one byte a command has. -/
def tableBytes (nbits w : Nat) : List Byte := lowBytes (max 1 ((nbits + 7) / 8)) (w % 2 ^ nbits)

/-- What the decoder reads from the table's bits: the instruction when the bytes hold exactly one. -/
def decodeTableWord (nbits w : Nat) : Option Instr :=
  match decodeBytes (tableBytes nbits w) with
  | .ok (i, []) => some i
  | .ok (_, _ :: _) => none
  | .error _ => none

/-- The register with a number; 0x0A to 0xFF are reserved (10_state.md R21, R22). -/
def regOfNumber (no : BitVec 8) : Option Reg :=
  match no.toNat with
  | 0 => some .cmd
  | 1 => some .status
  | 2 => some .key
  | 3 => some .blk
  | 4 => some .prevOut
  | 5 => some .prevMix
  | 6 => some .blkCount
  | 7 => some .inLen
  | 8 => some .outCap
  | 9 => some .resLen
  | _ => none

/-- The number of a register (10_state.md R21). -/
def numberOfReg : Reg → BitVec 8
  | .cmd => 0x00
  | .status => 0x01
  | .key => 0x02
  | .blk => 0x03
  | .prevOut => 0x04
  | .prevMix => 0x05
  | .blkCount => 0x06
  | .inLen => 0x07
  | .outCap => 0x08
  | .resLen => 0x09

end Sys2Proof
end

