-- ==== Sys2Proof/Machine/Flags.lean ====
section
/-! DEFINITION. The fields of `STATUS` (10_state.md R24) and the numbers of the status codes (60_exceptions.md R201). -/

namespace Sys2Proof.Machine

open Sys2Proof

/-- The number of a status code in `STATUS.ERR` (60_exceptions.md R201). -/
def errNumber : StatusCode → BitVec 4
  | .ok => 0x0
  | .invalidInput => 0x1
  | .invalidLength => 0x2
  | .bufferTooSmall => 0x3
  | .integrityCheckFailed => 0x4
  | .illegalCommand => 0x5

/-- The status that the parameter `OVERRUN_STATUS` names (00_scope.md R6, 44_message_codec.md R169). -/
def overrunCode : OverrunStatus → StatusCode
  | .integrityCheckFailed => .integrityCheckFailed
  | .invalidLength => .invalidLength

/-- The `STATUS` byte: bits 7:6 zero, then `BUSY`, `DONE`, `ERR` (10_state.md R24). -/
def statusByte (busy done : Bool) (err : BitVec 4) : BitVec 8 :=
  0b00#2 ++ BitVec.ofBool busy ++ BitVec.ofBool done ++ err

/-- `STATUS.ERR`, bits 3:0 (10_state.md R24). -/
def errField (status : BitVec 8) : BitVec 4 := status.extractLsb' 0 4

/-- `STATUS.DONE`, bit 4 (10_state.md R24). -/
def doneBit (status : BitVec 8) : Bool := status.getLsbD 4

/-- `STATUS.BUSY`, bit 5 (10_state.md R24). -/
def busyBit (status : BitVec 8) : Bool := status.getLsbD 5

/-- The reserved bits 7:6 of `STATUS` (10_state.md R24). -/
def reservedBits (status : BitVec 8) : BitVec 2 := status.extractLsb' 6 2

/-- `STATUS` while a command runs (70_reset_and_hazards.md R236). -/
def busyStatus : BitVec 8 := statusByte true false 0x0

/-- `STATUS` after a command ended with a code (60_exceptions.md R200, 70_reset_and_hazards.md R236). -/
def endStatus (code : StatusCode) : BitVec 8 := statusByte false true (errNumber code)

end Sys2Proof.Machine
end

