-- ==== Sys2Proof/Machine/Ops.lean ====
section
/-! DEFINITION. The named operations over the buffers, the RNG port, the registers and the end of a command. -/

namespace Sys2Proof.Machine

open Sys2Proof

/-! ### Byte sequences (00_scope.md R9) -/

/-- The bytes of a block, byte 0 first. -/
def blockToBytes (B : Block) : List Byte := [B.b0, B.b1, B.b2, B.b3, B.b4, B.b5, B.b6, B.b7]

/-- The bytes of a key, byte 0 first. -/
def keyToBytes (K : Key) : List Byte :=
  [K.k0, K.k1, K.k2, K.k3, K.k4, K.k5, K.k6, K.k7, K.k8, K.k9, K.k10, K.k11, K.k12, K.k13, K.k14, K.k15]

/-- The bytes of a sequence of blocks. -/
def blocksToBytes (Bs : List Block) : List Byte := Bs.flatMap blockToBytes

/-- A sequence of bytes cut into whole blocks from its first byte on (44_message_codec.md R161, R171); fewer than 8
bytes at the end make no block. -/
def bytesToBlocks : List Byte → List Block
  | b0 :: b1 :: b2 :: b3 :: b4 :: b5 :: b6 :: b7 :: rest => ⟨b0, b1, b2, b3, b4, b5, b6, b7⟩ :: bytesToBlocks rest
  | _ => []

/-- The block at an offset of a sequence of bytes given by its byte at each offset (44_message_codec.md R161, R171). -/
def blockAt (byte : Nat → Byte) (off : Nat) : Block :=
  ⟨byte off, byte (off + 1), byte (off + 2), byte (off + 3), byte (off + 4), byte (off + 5), byte (off + 6), byte (off + 7)⟩

/-- `xor8`: the byte-wise XOR of two blocks (00_scope.md R9). -/
def xor8 (A B : Block) : Block :=
  ⟨A.b0 ^^^ B.b0, A.b1 ^^^ B.b1, A.b2 ^^^ B.b2, A.b3 ^^^ B.b3,
   A.b4 ^^^ B.b4, A.b5 ^^^ B.b5, A.b6 ^^^ B.b6, A.b7 ^^^ B.b7⟩

/-! ### Buffers (20_memory.md R50 to R55) -/

/-- The byte at an offset. -/
def Memory.read : Memory → Nat → Byte
  | [], _ => unlistedByte
  | (a, b) :: rest, off => if off = a then b else Memory.read rest off

/-- A cell put before the first cell of a greater offset. -/
def Memory.insert : Memory → Nat → Byte → Memory
  | [], off, v => [(off, v)]
  | (a, b) :: rest, off, v => if off < a then (off, v) :: (a, b) :: rest else (a, b) :: Memory.insert rest off v

/-- Every cell of one offset taken out. -/
def Memory.erase (m : Memory) (off : Nat) : Memory := m.filter (fun c => c.1 != off)

/-- One byte written. -/
def Memory.write (m : Memory) (off : Nat) (v : Byte) : Memory :=
  if v = unlistedByte then Memory.erase m off else Memory.insert (Memory.erase m off) off v

/-- `n` bytes from an offset on (00_scope.md R11 `MemRead`). -/
def Memory.readBytes (m : Memory) (off n : Nat) : List Byte := (List.range n).map (fun k => Memory.read m (off + k))

/-- Bytes written from an offset on (00_scope.md R11 `MemWrite`). -/
def Memory.writeBytes : Memory → Nat → List Byte → Memory
  | m, _, [] => m
  | m, off, b :: bs => Memory.writeBytes (Memory.write m off b) (off + 1) bs

/-- The canonical form of a buffer: offsets strictly rising and below 2^LEN_W, no cell holding what an unlisted offset
reads as. -/
def Memory.wf (m : Memory) : Bool :=
  m.Pairwise (fun c d => c.1 < d.1) && m.all (fun c => c.2 != unlistedByte && decide (c.1 < lenSpace))

/-! ### Free values -/

/-- `n` free bytes from a place in the supply on. -/
def freeBytes (from_ n : Nat) : List Byte := (List.range n).map (fun k => Config.freeByte (from_ + k))

/-! ### The RNG port (20_memory.md R56) -/

/-- `Draw()`: the next byte a script line settled, or a free value (30_encoding.md R76). -/
def draw (s : State) : Byte × State :=
  match s.rngQueue with
  | b :: rest => (b, { s with rngQueue := rest, rngDrawn := s.rngDrawn + 1 })
  | [] => (Config.rngByte s.rngDrawn, { s with rngDrawn := s.rngDrawn + 1 })

/-- The four draws of MSG_ENC in their order: header, fill, and the two random bytes (44_message_codec.md R154). -/
def drawFour (s : State) : Draws × State :=
  let (h, s1) := draw s
  let (f, s2) := draw s1
  let (a, s3) := draw s2
  let (b, s4) := draw s3
  (⟨h, f, a, b⟩, s4)

/-! ### Writes to `OUT` -/

/-- Bytes written to `OUT` (20_memory.md R52). -/
def writeOut (off : Nat) (bs : List Byte) (s : State) : State :=
  { s with outBuf := Memory.writeBytes s.outBuf off bs }

/-- `n` bytes of `OUT` from offset 0 on take a free value each (44_message_codec.md R178, 70_reset_and_hazards.md R232). -/
def freeOut (n : Nat) (s : State) : State :=
  { s with outBuf := Memory.writeBytes s.outBuf 0 (freeBytes s.fresh n), fresh := s.fresh + n }

/-! ### The end of a command -/

/-- `raise Status(code, res)`: the one way a command ends; it reports and does nothing else, there is no trap
(60_exceptions.md R200, R211). The hidden state of the units is not kept (10_state.md R35, R36). -/
def raiseStatus (code : StatusCode) (res : Nat) (s : State) : State :=
  { s with
    status := endStatus code
    resLen := BitVec.ofNat 32 res
    running := none
    bt := none
    mc := none }

/-- `finish(res)`: a raise with the code `OK` (60_exceptions.md R200). -/
def finish (res : Nat) (s : State) : State := raiseStatus .ok res s

/-- After a message command the chaining registers hold unspecified values and `BLK` holds no value: its content is
unspecified too, and a read of it faults (10_state.md R43, 90_conflicts.md C10, log 4, log 5). -/
def discardChain (s : State) : State :=
  { s with
    chain :=
      { prevOut := Config.freeBlock s.fresh
        prevMix := Config.freeBlock (s.fresh + 1)
        blkCount := Config.freeLen (s.fresh + 2) }
    blk := Config.freeBlock (s.fresh + 3)
    written := { s.written with blk := .nothing }
    fresh := s.fresh + 4 }

/-! ### The start of a command -/

/-- The host's write of a command word while the core is idle (10_state.md R23, 70_reset_and_hazards.md R236). -/
def startCommand (c : BitVec 8) (s : State) : State :=
  { s with status := busyStatus, running := some c }

/-- A reserved command word: a status and nothing else (30_encoding.md R72, 60_exceptions.md R207). -/
def illegalCommand (s : State) : State := raiseStatus .illegalCommand 0 s

/-! ### Registers -/

/-- The value of a register (10_state.md R21); `CMD` holds none (10_state.md R23). -/
def regValue (s : State) : Reg → Option RegValue
  | .cmd => none
  | .status => some (.byte s.status)
  | .key => some (.key s.key)
  | .blk => some (.block s.blk)
  | .prevOut => some (.block s.chain.prevOut)
  | .prevMix => some (.block s.chain.prevMix)
  | .blkCount => some (.len s.chain.blkCount)
  | .inLen => some (.len s.inLen)
  | .outCap => some (.len s.outCap)
  | .resLen => some (.len s.resLen)

/-- The register holds no value, so a read of it faults: `BLK` after a message command (10_state.md R43,
60_exceptions.md R208, 90_conflicts.md C10). The registers that only reset left unwritten are read (log 2). -/
def noValue (s : State) (r : Reg) : Bool := r == .blk && s.written.blk == .nothing

/-- A block command's result written to `BLK`, which then holds a value (10_state.md R26, R38). -/
def writeBlk (B : Block) (s : State) : State :=
  { s with blk := B, written := { s.written with blk := .value } }

end Sys2Proof.Machine
end

