-- ==== Sys2Proof/Machine/Operands.lean ====
section
/-! DEFINITION. The operand forms of 30_encoding.md R74: byte sequences, lengths, and bytes of `IN`. -/

namespace Sys2Proof.Machine

open Sys2Proof

/-- The key operand `x[KEY]`, as bytes; the normalizer gives its words (30_encoding.md R74). -/
def keyOperand (s : State) : Key := s.key

/-- A block command on its operand `x[BLK]`: the fault `UNWRITTEN_REGISTER` while `BLK` holds no value
(30_encoding.md R74, 10_state.md R38, 60_exceptions.md R208). -/
def withBlk (s : State) (f : Block → State) : Host.Outcome State Fault Refusal :=
  if noValue s .blk then .fault (.unwrittenRegister .blk) else .next (f s.blk)

/-- The length operand `x[IN_LEN]`, a natural (00_scope.md R10, 30_encoding.md R74). -/
def inLenOperand (s : State) : Nat := s.inLen.toNat

/-- The capacity operand `x[OUT_CAP]`, a natural (00_scope.md R10, 30_encoding.md R74). -/
def outCapOperand (s : State) : Nat := s.outCap.toNat

/-- The buffer operand `IN[0 .. x[IN_LEN])` (20_memory.md R51, 30_encoding.md R74). -/
def inOperand (s : State) : List Byte := Memory.readBytes s.inBuf 0 (inLenOperand s)

end Sys2Proof.Machine
end

