-- ==== Sys2Proof/Machine/BlockTransform.lean ====
section
/-! DEFINITION. The 16-round block transform and its two commands (41_block_transform.md). -/

namespace Sys2Proof.Machine

open Sys2Proof

/-- The round function F (41_block_transform.md R100). -/
def roundF (v s k0 k1 : Word) : Word := ((v <<< shl) + k0) ^^^ (v + s) ^^^ ((v >>> shr) + k1)

/-- One encrypt round: `sum` first, then `y`, then `z` from the new `y` (41_block_transform.md R101, R103). -/
def encRound (k : KeyWords) (p : Lanes) : Lanes :=
  let sum := p.sum + delta
  let y := p.y + roundF p.z sum k.a k.b
  let z := p.z + roundF y sum k.c k.d
  ⟨y, z, sum⟩

/-- One decrypt round: `z`, then `y` from the new `z`, then `sum` (41_block_transform.md R102). -/
def decRound (k : KeyWords) (p : Lanes) : Lanes :=
  let z := p.z - roundF p.y p.sum k.c k.d
  let y := p.y - roundF z p.sum k.a k.b
  let sum := p.sum - delta
  ⟨y, z, sum⟩

/-- The pipeline loaded with a block (10_state.md R35, 41_block_transform.md R101, R102). -/
def btStart (dir : Direction) (B : Block) : BtState :=
  let (y, z) := blockWords B
  match dir with
  | .encrypt => ⟨⟨y, z, 0⟩, 0, dir⟩
  | .decrypt => ⟨⟨y, z, sumDec0⟩, 0, dir⟩

/-- One round of the pipeline in its direction (41_block_transform.md R107). -/
def btRound (k : KeyWords) (p : BtState) : BtState :=
  match p.dir with
  | .encrypt => { p with lanes := encRound k p.lanes, round := p.round + 1 }
  | .decrypt => { p with lanes := decRound k p.lanes, round := p.round + 1 }

/-- The block the pipeline holds, in wire order (42_normalizer.md R125). -/
def btBlock (p : BtState) : Block := wordsBlock p.lanes.y p.lanes.z

/-- `encryptBlock(B, K)` (41_block_transform.md R101). -/
def encryptBlock (B : Block) (K : Key) : Block := btBlock ((btRound (keyWords K))^[rounds] (btStart .encrypt B))

/-- `decryptBlock(B, K)` (41_block_transform.md R102). -/
def decryptBlock (B : Block) (K : Key) : Block := btBlock ((btRound (keyWords K))^[rounds] (btStart .decrypt B))

/-- TEA_ENC (41_block_transform.md R104); a `BLK` without a value faults (10_state.md R38). -/
def execTeaEnc (s : State) : Host.Outcome State Fault Refusal :=
  withBlk s fun B => finish blockBytes (writeBlk (encryptBlock B (keyOperand s)) s)

/-- TEA_DEC (41_block_transform.md R105); a `BLK` without a value faults (10_state.md R38). -/
def execTeaDec (s : State) : Host.Outcome State Fault Refusal :=
  withBlk s fun B => finish blockBytes (writeBlk (decryptBlock B (keyOperand s)) s)

end Sys2Proof.Machine
end

