-- ==== Sys2Proof/Machine/Chaining.lean ====
section
/-! DEFINITION. The chaining engine: its two step functions and its three commands (43_chaining.md). -/

namespace Sys2Proof.Machine

open Sys2Proof

/-- One encrypt step: the output block and the chaining state after it (43_chaining.md R132, R133). -/
def chainEncStep (K : Key) (c : Chain) (P : Block) : Block × Chain :=
  let M := xor8 P c.prevOut
  let E := encryptBlock M K
  let O := xor8 E c.prevMix
  (O, ⟨O, M, c.blkCount + 1⟩)

/-- One decrypt step: the output block and the chaining state after it (43_chaining.md R133, R134). -/
def chainDecStep (K : Key) (c : Chain) (O : Block) : Block × Chain :=
  let E := xor8 O c.prevMix
  let M := decryptBlock E K
  let P := xor8 M c.prevOut
  (P, ⟨O, M, c.blkCount + 1⟩)

/-- The encrypt step over a sequence of blocks, in order (43_chaining.md R136, 44_message_codec.md R161). -/
def chainEncAll (K : Key) : Chain → List Block → List Block × Chain
  | c, [] => ([], c)
  | c, P :: Ps =>
    let (O, c1) := chainEncStep K c P
    let (Os, c2) := chainEncAll K c1 Ps
    (O :: Os, c2)

/-- The decrypt step over a sequence of blocks, in order (43_chaining.md R136, 44_message_codec.md R171). -/
def chainDecAll (K : Key) : Chain → List Block → List Block × Chain
  | c, [] => ([], c)
  | c, O :: Os =>
    let (P, c1) := chainDecStep K c O
    let (Ps, c2) := chainDecAll K c1 Os
    (P :: Ps, c2)

/-- CHAIN_INIT (43_chaining.md R131). -/
def execChainInit (s : State) : Host.Outcome State Fault Refusal :=
  .next (finish 0 { s with chain := Chain.zero })

/-- CHAIN_ENC (43_chaining.md R132); a `BLK` without a value faults (10_state.md R38). -/
def execChainEnc (s : State) : Host.Outcome State Fault Refusal :=
  withBlk s fun B =>
    let (O, c) := chainEncStep (keyOperand s) s.chain B
    finish blockBytes (writeBlk O { s with chain := c })

/-- CHAIN_DEC (43_chaining.md R134); a `BLK` without a value faults (10_state.md R38). -/
def execChainDec (s : State) : Host.Outcome State Fault Refusal :=
  withBlk s fun B =>
    let (P, c) := chainDecStep (keyOperand s) s.chain B
    finish blockBytes (writeBlk P { s with chain := c })

end Sys2Proof.Machine
end

