-- ==== Sys2Proof/Machine/MessageCodec.lean ====
section
/-! DEFINITION. The message codec: the layout arbiter, the checks and the two message commands (44_message_codec.md). -/

namespace Sys2Proof.Machine

open Sys2Proof

/-- What a check that fails reports: a status code and the value for `RES_LEN` (60_exceptions.md R201). -/
abbrev Report := StatusCode × Nat

/-! ### Layout arbiter -/

/-- The padding-fill count N of a plaintext of `L` bytes (44_message_codec.md R155). -/
def fillCountOf (L : Nat) : Nat := (8 - (L + overhead) % 8) % 8

/-- The padded total T (44_message_codec.md R156). -/
def totalLength (L : Nat) : Nat := 1 + fillCountOf L + extraRandom + L + trailerZeros

/-- The header byte: the draw's bits 7:3 and N (44_message_codec.md R153). -/
def headerByte (n : Nat) (hdr : Byte) : Byte := (hdr &&& ~~~hdrMask) ||| BitVec.ofNat 8 n

/-- The padded plaintext: header, fill, two random bytes, plaintext, zeros (44_message_codec.md R153). -/
def layout (n : Nat) (d : Draws) (pt : List Byte) : List Byte :=
  [headerByte n d.hdr] ++ List.replicate n d.fill ++ [d.a, d.b] ++ pt ++ List.replicate trailerZeros 0x00

/-! ### MSG_ENC -/

/-- The checks of MSG_ENC in their order, and what the codec holds when they pass (44_message_codec.md R157 to R160). -/
def encPlan (s : State) : Except Report McState :=
  let L := inLenOperand s
  if L = 0 then .error (.invalidInput, 0)
  else if lMax < L then .error (.invalidInput, 0)
  else if outCapOperand s < totalLength L then .error (.bufferTooSmall, totalLength L)
  else
    .ok
      { fillCount := fillCountOf L
        total := totalLength L
        cursor := 0
        draws := none
        firstBlock := none
        zeroRun := true }

/-- The checks passed: the codec takes its four draws and holds them, and the chaining state is zeroed
(44_message_codec.md R152, R154, 10_state.md R36). -/
def beginEnc (m : McState) (s : State) : State :=
  let (d, s1) := drawFour s
  { s1 with chain := Chain.zero, mc := some { m with draws := some d } }

/-- The layout LAY the codec encrypts, from N, the draws it holds and `IN` (44_message_codec.md R150, R153). -/
def encLayout (s : State) : List Byte :=
  match s.mc with
  | some { fillCount := n, draws := some d, .. } => layout n d (inOperand s)
  | _ => []

/-- One pass of MSG_ENC's loop: the layout block at the cursor through the encrypt step, its output to `OUT` at the
cursor, the cursor to the next block (44_message_codec.md R161, 10_state.md R36). -/
def encBlock (lay : List Byte) (s : State) : State :=
  match s.mc with
  | none => s
  | some m =>
    let (O, c) := chainEncStep (keyOperand s) s.chain (blockAt (fun j => lay.getD j 0) m.cursor)
    { writeOut m.cursor (blockToBytes O) s with chain := c, mc := some { m with cursor := m.cursor + blockBytes } }

/-- MSG_ENC up to its end (44_message_codec.md R150, R162). -/
def messageEnc (s : State) : State :=
  match encPlan s with
  | .error (code, res) => raiseStatus code res s
  | .ok m =>
    let s1 := beginEnc m s
    finish m.total ((encBlock (encLayout s1))^[m.total / blockBytes] s1)

/-- MSG_ENC (44_message_codec.md R150); the chaining state is discarded on every outcome (10_state.md R43). -/
def execMsgEnc (s : State) : Host.Outcome State Fault Refusal :=
  .next (discardChain (messageEnc s))

/-! ### MSG_DEC -/

/-- The first decrypted block P_1, from `IN[0 .. 8)` and the zero state (44_message_codec.md R167). -/
def firstPlain (K : Key) (inBuf : Memory) : Block := (chainDecStep K Chain.zero (blockAt (Memory.read inBuf) 0)).1

/-- The N a first block's header holds (44_message_codec.md R167). -/
def headerCount (P1 : Block) : Nat := (P1.b0 &&& hdrMask).toNat

/-- The fill checker: N > 1 and some byte 2 .. N of the first block differs from byte 1 (44_message_codec.md R168, R177). -/
def fillMismatch (P1 : Block) : Bool :=
  decide (1 < headerCount P1) && (((blockToBytes P1).take (headerCount P1 + 1)).drop 2).any (fun b => b != P1.b1)

/-- The checks of MSG_DEC before its first write, in their order, and what the codec holds when they pass
(44_message_codec.md R166 to R170, R176). -/
def decPlan (s : State) : Except Report McState :=
  let C := inLenOperand s
  if C < minCt ∨ C % blockBytes ≠ 0 then .error (.invalidLength, 0)
  else
    let P1 := firstPlain (keyOperand s) s.inBuf
    let N := headerCount P1
    if fillMismatch P1 then .error (.integrityCheckFailed, 0)
    else if C < N + overhead then .error (overrunCode s.cfg.overrun, 0)
    else if outCapOperand s < C - N - overhead then .error (.bufferTooSmall, C - N - overhead)
    else
      .ok
        { fillCount := N
          total := C - N - overhead
          cursor := blockBytes
          draws := none
          firstBlock := some P1
          zeroRun := true }

/-- The copy window: `len` bytes after the header, the `n` fill bytes and the two random bytes (44_message_codec.md R172). -/
def copyWindow (n len : Nat) (pl : List Byte) : List Byte := (pl.drop (1 + n + extraRandom)).take len

/-- The offset C - 7 of the trailer in the recovered layout of a message with this N and Lout: the end of the copy window
(44_message_codec.md R172, R173). -/
def trailerStart (m : McState) : Nat := 1 + m.fillCount + extraRandom + m.total

/-- The zero-run checker on the recovered block at offset `off`: its bytes from the trailer's start on are zero
(44_message_codec.md R173). -/
def blockTrailerZero (start off : Nat) (P : Block) : Bool :=
  ((blockToBytes P).drop (start - off)).all (fun b => b == 0x00)

/-- The checks before the first write passed: the chaining state is the one block 1 left, from the zero state, and the
codec holds P_1, N and Lout (44_message_codec.md R152, R167, R171, 10_state.md R36). -/
def beginDec (m : McState) (s : State) : State :=
  { s with chain := (chainDecStep (keyOperand s) Chain.zero (blockAt (Memory.read s.inBuf) 0)).2, mc := some m }

/-- One pass of MSG_DEC's loop: the ciphertext block at the cursor through the decrypt step, its bytes to the end of PL and
to the zero-run checker, the cursor to the next block (44_message_codec.md R171, R173, 10_state.md R36). -/
def decBlock (p : List Byte × State) : List Byte × State :=
  let (pl, s) := p
  match s.mc with
  | none => (pl, s)
  | some m =>
    let (P, c) := chainDecStep (keyOperand s) s.chain (blockAt (Memory.read s.inBuf) m.cursor)
    (pl ++ blockToBytes P,
      { s with
        chain := c
        mc := some { m with
          cursor := m.cursor + blockBytes
          zeroRun := m.zeroRun && blockTrailerZero (trailerStart m) m.cursor P } })

/-- The recovered layout PL after the last block, from P_1 on, and the state then (44_message_codec.md R171). -/
def decStream (m : McState) (s : State) : List Byte × State :=
  decBlock^[inLenOperand s / blockBytes - 1] ((m.firstBlock.map blockToBytes).getD [], beginDec m s)

/-- The zero-run accumulator: no non-zero trailer byte seen (44_message_codec.md R173, 10_state.md R36). -/
def zeroRunHolds (s : State) : Bool :=
  match s.mc with
  | some m => m.zeroRun
  | none => true

/-- MSG_DEC up to its end (44_message_codec.md R151, R172 to R175, R178). -/
def messageDec (s : State) : State :=
  match decPlan s with
  | .error (code, res) => raiseStatus code res s
  | .ok m =>
    let (pl, s1) := decStream m s
    if zeroRunHolds s1 then finish m.total (writeOut 0 (copyWindow m.fillCount m.total pl) s1)
    else raiseStatus .integrityCheckFailed 0 (freeOut m.total s1)

/-- MSG_DEC (44_message_codec.md R151); the chaining state is discarded on every outcome (10_state.md R43). -/
def execMsgDec (s : State) : Host.Outcome State Fault Refusal :=
  .next (discardChain (messageDec s))

/-! ### A message command abandoned by reset -/

/-- How many bytes of `OUT`, from offset 0 on, the command could have written (44_message_codec.md R163, R178,
70_reset_and_hazards.md R232). -/
def outReach (i : Instr) (s : State) : Nat :=
  match i with
  | .teaEnc | .teaDec | .chainInit | .chainEnc | .chainDec => 0
  | .msgEnc =>
    match encPlan s with
    | .ok m => m.total
    | .error _ => 0
  | .msgDec =>
    match decPlan s with
    | .ok m => m.total
    | .error _ => 0

end Sys2Proof.Machine
end

