-- ==== Sys2Proof/Machine/Dispatch.lean ====
section
/-! DEFINITION. One arm per command, each one call of its meaning. -/

namespace Sys2Proof.Machine

open Sys2Proof

def exec (i : Instr) (s : State) : Host.Outcome State Fault Refusal :=
  match i with
  | .teaEnc => Sys2Proof.Machine.execTeaEnc s
  | .teaDec => Sys2Proof.Machine.execTeaDec s
  | .chainInit => Sys2Proof.Machine.execChainInit s
  | .chainEnc => Sys2Proof.Machine.execChainEnc s
  | .chainDec => Sys2Proof.Machine.execChainDec s
  | .msgEnc => Sys2Proof.Machine.execMsgEnc s
  | .msgDec => Sys2Proof.Machine.execMsgDec s

end Sys2Proof.Machine
end

