-- ==== Sys2Proof/Machine/Host.lean ====
section
/-! DEFINITION. The agents' moves: the host's accesses (10_state.md R22, 20_memory.md R50, 70_reset_and_hazards.md R237),
the core's step on the running command (70_reset_and_hazards.md R236), the RNG (30_encoding.md R76) and reset
(70_reset_and_hazards.md R230, R232). -/

namespace Sys2Proof.Machine

open Sys2Proof

/-! ### The core -/

/-- The core's step: the running command runs to its end at once, one atomic step whatever its latency
(70_reset_and_hazards.md R236, R246); a reserved word ends with `ILLEGAL_COMMAND` (30_encoding.md R71, R72). With no command running the core is idle and nothing changes
(60_exceptions.md R220). -/
def coreMove (s : State) : Host.Outcome State Fault Refusal :=
  match s.running with
  | none => .next s
  | some c =>
    match decodeWord c with
    | .ok i => exec i s
    | .error _ => .next (illegalCommand s)

/-! ### The host's register accesses -/

/-- A host read of a register by its number: the value is seen, nothing else changes (10_state.md R22). A register that
holds no value faults (10_state.md R38, 70_reset_and_hazards.md R245). -/
def hostReadReg (no : BitVec 8) (s : State) : Host.Outcome State Fault Refusal :=
  match regOfNumber no with
  | none => .refused (.reservedRegister no)
  | some r =>
    match regValue s r with
    | none => .refused .writeOnlyRegister
    | some v =>
      if noValue s r then .fault (.unwrittenRegister r) else .next { s with observed := .reg v :: s.observed }

/-- A host write of one whole register (10_state.md R22, R23, R38). -/
def hostWrite (r : Reg) (v : RegValue) (s : State) : Host.Outcome State Fault Refusal :=
  match r, v with
  | .cmd, .byte c => .next (startCommand c s)
  | .key, .key k => .next { s with key := k, written := { s.written with key := true } }
  | .blk, .block b => .next (writeBlk b s)
  | .inLen, .len n => .next { s with inLen := n, written := { s.written with inLen := true } }
  | .outCap, .len n => .next { s with outCap := n, written := { s.written with outCap := true } }
  | r, _ => if r.writable then .refused (.partialAccess r) else .refused (.readOnlyRegister r)

/-- A host write of a register by its number (10_state.md R22). -/
def hostWriteReg (no : BitVec 8) (v : RegValue) (s : State) : Host.Outcome State Fault Refusal :=
  match regOfNumber no with
  | none => .refused (.reservedRegister no)
  | some r => hostWrite r v s

/-! ### The host's buffer accesses -/

/-- `n` offsets from `off` on exist (20_memory.md R50, log 16). -/
def offsetsExist (off n : Nat) : Bool := decide (off + n ≤ lenSpace)

/-- The host writes bytes of `IN` (20_memory.md R50). -/
def hostWriteIn (off : Nat) (bs : List Byte) (s : State) : Host.Outcome State Fault Refusal :=
  if offsetsExist off bs.length then .next { s with inBuf := Memory.writeBytes s.inBuf off bs } else .fault .noSuchOffset

/-- The host reads bytes of `IN` (20_memory.md R50). -/
def hostReadIn (off n : Nat) (s : State) : Host.Outcome State Fault Refusal :=
  if offsetsExist off n then .next { s with observed := .bytes (Memory.readBytes s.inBuf off n) :: s.observed }
  else .fault .noSuchOffset

/-- The host writes bytes of `OUT` (20_memory.md R50). -/
def hostWriteOut (off : Nat) (bs : List Byte) (s : State) : Host.Outcome State Fault Refusal :=
  if offsetsExist off bs.length then .next (writeOut off bs s) else .fault .noSuchOffset

/-- The host reads bytes of `OUT` (20_memory.md R50). -/
def hostReadOut (off n : Nat) (s : State) : Host.Outcome State Fault Refusal :=
  if offsetsExist off n then .next { s with observed := .bytes (Memory.readBytes s.outBuf off n) :: s.observed }
  else .fault .noSuchOffset

/-! ### The host -/

/-- The access is one that has a meaning while a command runs: a read of `STATUS` (70_reset_and_hazards.md R237). -/
def allowedWhileBusy : HostAction → Bool
  | .readReg no => no == numberOfReg .status
  | .writeReg _ _ | .writeIn _ _ | .readIn _ _ | .writeOut _ _ | .readOut _ _ | .shareBuffers => false

/-- What a host access does while it has a meaning (10_state.md R22, 20_memory.md R50, R53). -/
def hostAccess (a : HostAction) (s : State) : Host.Outcome State Fault Refusal :=
  match a with
  | .writeReg no v => hostWriteReg no v s
  | .readReg no => hostReadReg no s
  | .writeIn off bs => hostWriteIn off bs s
  | .readIn off n => hostReadIn off n s
  | .writeOut off bs => hostWriteOut off bs s
  | .readOut off n => hostReadOut off n s
  | .shareBuffers => .refused .overlappingBuffers

/-- A host access: while `BUSY = 1` only a read of `STATUS` has a meaning (70_reset_and_hazards.md R237). -/
def hostMove (a : HostAction) (s : State) : Host.Outcome State Fault Refusal :=
  if busyBit s.status && !allowedWhileBusy a then .refused .accessWhileBusy else hostAccess a s

/-! ### Reset -/

/-- The draws a running message command had taken when reset abandoned it: a free number of its four for MSG_ENC; none
for any other command, as reset itself takes none (44_message_codec.md R154, 70_reset_and_hazards.md R230, log 7). -/
def abandonDraws (i : Instr) (s : State) : State :=
  match i with
  | .msgEnc =>
    let k := (Config.freeDraws s.fresh).val
    { s with rngQueue := s.rngQueue.drop k, rngDrawn := s.rngDrawn + k, fresh := s.fresh + 1 }
  | .teaEnc | .teaDec | .chainInit | .chainEnc | .chainDec | .msgDec => s

/-- What a running command leaves behind when reset abandons it: each `OUT` byte it could have written is free
(70_reset_and_hazards.md R232, log 7), and the RNG has answered the draws it had taken. A command that could have written
no byte of `OUT` has taken no draw. -/
def abandonCommand (s : State) : State :=
  match s.running with
  | none => s
  | some c =>
    match decodeWord c with
    | .error _ => s
    | .ok i => if outReach i s = 0 then s else abandonDraws i (freeOut (outReach i s) s)

/-- Every register at its reset value; the buffers, the RNG, the moves to come and the parameters are not the core's
registers and stay (10_state.md R39, 70_reset_and_hazards.md R230). -/
def resetRegisters (s : State) : State :=
  { State.reset with
    inBuf := s.inBuf
    outBuf := s.outBuf
    rngQueue := s.rngQueue
    rngDrawn := s.rngDrawn
    fresh := s.fresh
    pending := s.pending
    observed := s.observed
    cfg := s.cfg }

/-- The reset input is asserted (70_reset_and_hazards.md R230, R232). -/
def assertReset (s : State) : State := resetRegisters (abandonCommand s)

/-! ### Whose move it is -/

/-- The host reads `STATUS` again and again: while a command runs the core gets its step, which is its weak fairness
(70_reset_and_hazards.md R236, R246, log 11), and the wait is over when `BUSY = 0` and `DONE = 1` (30_encoding.md R76).
Its reads are not recorded in `observed` (log 11, log 12). `after` is what is left to come when the wait is over. -/
def waitMove (after : List Move) (s : State) : Host.Outcome State Fault Refusal :=
  match s.running with
  | some _ => coreMove s
  | none =>
    if doneBit s.status && !busyBit s.status then .next { s with pending := after } else .next s

/-- One step of the machine: the agent that moves next makes its move (10_state.md R20, log 9). With no move left the
core gets its step, so that a running command is always taken to its end (70_reset_and_hazards.md R246, log 11). -/
def moveNext (s : State) : Host.Outcome State Fault Refusal :=
  match s.pending with
  | [] => coreMove s
  | .wait :: after => waitMove after s
  | .host a :: after => hostMove a { s with pending := after }
  | .core :: after => coreMove { s with pending := after }
  | .rng bs :: after => .next { s with rngQueue := bs, pending := after }
  | .reset :: after => .next (assertReset { s with pending := after })

/-- The machine as it stands after the host wrote command word `c` to an idle core, with the core to move next
(70_reset_and_hazards.md R236, log 10). -/
def placeCommand (c : BitVec 8) (s : State) : State :=
  { startCommand c s with pending := .core :: s.pending }

/-- `placeCommand` of the command word whose bits are `w` in the opcode table's numbering, the bits above `nbits` zero. -/
def placeTableWord (nbits w : Nat) (s : State) : State := placeCommand (BitVec.ofNat 8 (w % 2 ^ nbits)) s

end Sys2Proof.Machine
end

