-- ==== Sys2Proof/Machine/Step.lean ====
section
/-! DEFINITION. One step of the machine, and a command put where the next step takes it. -/

namespace Sys2Proof.Machine

open Sys2Proof

/-- One step (10_state.md R20, 70_reset_and_hazards.md R236, R246: a command is one atomic step of the core). -/
def step (s : State) : Host.Outcome State Fault Refusal := moveNext s

/-- The state whose next step runs the command with these bits. The core fetches nothing (20_memory.md R64): a command
is the byte the host writes to `CMD`, so this is the state after that write, with the core to move next (log 10). -/
def State.withFetchWord (s : State) (nbits w : Nat) : State := placeTableWord nbits w s

end Sys2Proof.Machine
end

