-- ==== Sys2Proof/Machine/Script.lean ====
section
/-! DEFINITION. Host scripts: the statements and pseudo-commands of 30_encoding.md R76 and R77 as moves, and a script's
encoding (30_encoding.md R78). -/

namespace Sys2Proof.Machine

open Sys2Proof

/-- A statement of a host script (30_encoding.md R76, R77). The expected result of `RD` and `RDOUT` is a claim about the
run, not an action, and is kept beside the read (log 12). -/
inductive Stmt where
  /-- `WR reg, value` -/
  | wr (r : Reg) (v : RegValue)
  /-- `RD reg [=> value]` -/
  | rd (r : Reg) (expect : Option RegValue)
  /-- `CMD mnemonic` -/
  | cmd (i : Instr)
  /-- `WAIT` -/
  | wait
  /-- `IN bytes` -/
  | fillIn (bs : List Byte)
  /-- `OUTCLR n` -/
  | outClr (n : Nat)
  /-- `RDOUT off, n [=> bytes]` -/
  | rdOut (off n : Nat) (expect : Option (List Byte))
  /-- `RNG bytes` -/
  | rng (bs : List Byte)
  /-- a mnemonic alone: the command and a wait -/
  | run (i : Instr)
  /-- `ENCRYPT bytes, cap` -/
  | encrypt (bs : List Byte) (cap : Len)
  /-- `DECRYPT bytes, cap` -/
  | decrypt (bs : List Byte) (cap : Len)
  /-- `EXPECT_ERR code` -/
  | expectErr (code : BitVec 4)
  deriving DecidableEq, Repr

/-- The poison value of `OUTCLR` (30_encoding.md R76). -/
def poison : Byte := 0xEE

/-- `WR reg, value`. -/
def writeMove (r : Reg) (v : RegValue) : Move := .host (.writeReg (numberOfReg r) v)

/-- `CMD m` has the same effect as `WR CMD, code(m)` (30_encoding.md R76). -/
def commandMove (i : Instr) : Move := writeMove .cmd (.byte (encode i))

/-- `IN bytes`, `WR IN_LEN, len(bytes)`, `WR OUT_CAP, cap`: how ENCRYPT and DECRYPT begin (30_encoding.md R77). R77 does
not say what `len(bytes)` is when it needs more than LEN_W bits: it is cut modulo 2^32 (DESIGN CHOICE, log 28). -/
def messageMoves (bs : List Byte) (cap : Len) : List Move :=
  [.host (.writeIn 0 bs), writeMove .inLen (.len (BitVec.ofNat 32 bs.length)), writeMove .outCap (.len cap)]

/-- The moves of a statement (30_encoding.md R76, R77). -/
def Stmt.moves : Stmt → List Move
  | .wr r v => [writeMove r v]
  | .rd r _ => [.host (.readReg (numberOfReg r))]
  | .cmd i => [commandMove i]
  | .wait => [.wait]
  | .fillIn bs => [.host (.writeIn 0 bs)]
  | .outClr n => [.host (.writeOut 0 (List.replicate n poison))]
  | .rdOut off n _ => [.host (.readOut off n)]
  | .rng bs => [.rng bs]
  | .run i => [commandMove i, .wait]
  | .encrypt bs cap => messageMoves bs cap ++ [commandMove .msgEnc, .wait]
  | .decrypt bs cap => messageMoves bs cap ++ [commandMove .msgDec, .wait]
  | .expectErr _ => [.host (.readReg (numberOfReg .status))]

/-- A statement is valid when its register access is not one of those 10_state.md R22 refuses (30_encoding.md R76). -/
def Stmt.valid : Stmt → Bool
  | .wr r v => r.writable && r.takes v
  | .rd r _ => r.readable
  | .cmd _ | .wait | .fillIn _ | .outClr _ | .rdOut _ _ _ | .rng _ | .run _ | .encrypt _ _ | .decrypt _ _ | .expectErr _ => true

/-- What a statement's read is expected to answer (30_encoding.md R76, R77). -/
def Stmt.expected : Stmt → Option HostValue
  | .rd _ (some v) => some (.reg v)
  | .rdOut _ _ (some bs) => some (.bytes bs)
  | .expectErr code => some (.reg (.byte (0x1#4 ++ code)))
  | _ => none

/-- The `CMD` byte of a move, if it writes `CMD` (30_encoding.md R78). -/
def Move.commandByte : Move → Option Byte
  | .host (.writeReg no (.byte c)) => if no = numberOfReg .cmd then some c else none
  | _ => none

/-- The moves of a script. -/
def scriptMoves (p : List Stmt) : List Move := p.flatMap Stmt.moves

/-- The encoding of a script: its `CMD` bytes in order (30_encoding.md R78). -/
def scriptEncoding (p : List Stmt) : List Byte := (scriptMoves p).filterMap Move.commandByte

/-- A script loaded: its moves are the ones still to come. -/
def loadScript (p : List Stmt) (s : State) : State := { s with pending := scriptMoves p }

end Sys2Proof.Machine
end

