-- ==== Sys2Proof/Safety.lean ====
section
/-! DEFINITION. What counts as a safe run, in the terms claims use: reads of registers the host has not written
(10_state.md R38, log 2), the invariant of every state a run reaches, whole messages through the codec, and short runs of
block commands. -/

namespace Sys2Proof.Machine

open Sys2Proof

/-! ### Unwritten registers -/

/-- The register is one of the four that can be unwritten, and it is: since reset, or for `BLK` since a message command
(10_state.md R38, R43). -/
def unwritten (s : State) : Reg → Bool
  | .key => !s.written.key
  | .blk => s.written.blk != .value
  | .inLen => !s.written.inLen
  | .outCap => !s.written.outCap
  | .cmd | .status | .prevOut | .prevMix | .blkCount | .resLen => false

/-- MSG_ENC's pseudocode reads `IN_LEN`, then `OUT_CAP` if the length checks pass, then `KEY` if the capacity check
passes: the first of them that is unwritten (44_message_codec.md R150). -/
def unwrittenReadsEnc (s : State) : List Reg :=
  if unwritten s .inLen then [.inLen]
  else if inLenOperand s = 0 ∨ lMax < inLenOperand s then []
  else if unwritten s .outCap then [.outCap]
  else if outCapOperand s < totalLength (inLenOperand s) then []
  else [Reg.key].filter (unwritten s)

/-- MSG_DEC's pseudocode reads `IN_LEN`, then `KEY` if the length check passes, then `OUT_CAP` if the fill and overrun
checks pass: the first of them that is unwritten (44_message_codec.md R151). -/
def unwrittenReadsDec (s : State) : List Reg :=
  if unwritten s .inLen then [.inLen]
  else if inLenOperand s < minCt ∨ inLenOperand s % blockBytes ≠ 0 then []
  else if unwritten s .key then [.key]
  else if fillMismatch (firstPlain (keyOperand s) s.inBuf) then []
  else if inLenOperand s < headerCount (firstPlain (keyOperand s) s.inBuf) + overhead then []
  else [Reg.outCap].filter (unwritten s)

/-- The unwritten registers a command reaches: not empty exactly where the spec's model reports `UNWRITTEN_REGISTER`
(10_state.md R38, R42, 60_exceptions.md R208); here only a `BLK` that a message command left without a value stops it
(log 2). -/
def unwrittenReads (i : Instr) (s : State) : List Reg :=
  match i with
  | .teaEnc | .teaDec | .chainEnc | .chainDec => [Reg.blk, Reg.key].filter (unwritten s)
  | .chainInit => []
  | .msgEnc => unwrittenReadsEnc s
  | .msgDec => unwrittenReadsDec s

/-- The core's step on the running command, if any, reaches no unwritten register (10_state.md R38). -/
def coreReadsWritten (s : State) : Bool :=
  match s.running with
  | none => true
  | some c =>
    match decodeWord c with
    | .ok i => (unwrittenReads i s).isEmpty
    | .error _ => true

/-- The next step reads no unwritten register: neither the core's step on a command, nor a host read, nor a reset, whose
effect on `OUT` depends on what the abandoned command would have read (10_state.md R38, 93_implementation_defined.md U6,
70_reset_and_hazards.md R232). -/
def readsWritten (s : State) : Bool :=
  match s.pending with
  | [] => coreReadsWritten s
  | .core :: _ => coreReadsWritten s
  | .wait :: _ => coreReadsWritten s
  | .host (.readReg no) :: _ =>
    match regOfNumber no with
    | some r => !unwritten s r
    | none => true
  | .host (.writeReg _ _) :: _ | .host (.writeIn _ _) :: _ | .host (.readIn _ _) :: _ => true
  | .host (.writeOut _ _) :: _ | .host (.readOut _ _) :: _ | .host .shareBuffers :: _ => true
  | .rng _ :: _ => true
  | .reset :: _ => coreReadsWritten s

/-- The state with these contents in those of the four registers that are unwritten: what another core would hold there. -/
def refill (k : Key) (b : Block) (n c : Len) (s : State) : State :=
  { s with
    key := if unwritten s .key then k else s.key
    blk := if unwritten s .blk then b else s.blk
    inLen := if unwritten s .inLen then n else s.inLen
    outCap := if unwritten s .outCap then c else s.outCap }

/-! ### The invariant -/

/-- `STATUS` is legal: the reserved bits are 0, `ERR` is one of the six codes, `BUSY` says whether a command runs, and
while it is 1 `DONE` and `ERR` read 0 (10_state.md R24, 93_implementation_defined.md U12, U13). -/
def statusLegal (s : State) : Bool :=
  reservedBits s.status == 0 && decide ((errField s.status).toNat ≤ 5) &&
    busyBit s.status == s.running.isSome && (!busyBit s.status || (!doneBit s.status && errField s.status == 0))

/-- What every state of a run satisfies: `STATUS` is legal, the units hold nothing between steps (10_state.md R37), and
both buffers are in canonical form (20_memory.md R50). -/
def Invariant (s : State) : Prop :=
  statusLegal s = true ∧ s.bt = none ∧ s.mc = none ∧ Memory.wf s.inBuf = true ∧ Memory.wf s.outBuf = true

/-! ### A message as a whole -/

/-- The ciphertext of a plaintext: the layout through the chaining engine from the zero state (44_message_codec.md R152,
R161). -/
def encryptMessage (K : Key) (n : Nat) (d : Draws) (pt : List Byte) : List Byte :=
  blocksToBytes (chainEncAll K Chain.zero (bytesToBlocks (layout n d pt))).1

/-- The recovered layout PL: every block of a ciphertext through the decrypt step from the zero state
(44_message_codec.md R171). -/
def decryptMessage (K : Key) (ct : List Byte) : List Byte :=
  blocksToBytes (chainDecAll K Chain.zero (bytesToBlocks ct)).1

/-- The last 7 bytes of the recovered layout are zero (44_message_codec.md R173). -/
def trailerZero (pl : List Byte) : Bool := (pl.drop (pl.length - trailerZeros)).all (fun b => b == 0x00)

/-! ### Runs of block commands -/

/-- The state an outcome leads to, if it is a next state. -/
def nextState : Host.Outcome State Fault Refusal → Option State
  | .next s => some s
  | .fault _ => none
  | .refused _ => none

/-- Host-driven block commands: for each command and block the host writes `BLK`, the command runs, and the host takes the
result from `BLK` (70_reset_and_hazards.md R239). The results and the state at the end. -/
def driveSteps : State → List (Instr × Block) → Option (List Block × State)
  | s, [] => some ([], s)
  | s, (i, B) :: rest =>
    match nextState (exec i (writeBlk B s)) with
    | none => none
    | some t =>
      match driveSteps t rest with
      | none => none
      | some (Bs, u) => some (t.blk :: Bs, u)

/-- A host-driven chain: one command over a list of blocks. -/
def driveChain (i : Instr) (s : State) (Bs : List Block) : Option (List Block × State) :=
  driveSteps s (Bs.map fun B => (i, B))

end Sys2Proof.Machine
end

