-- ==== Sys2Proof/Certificates/Slice0/Obligations.lean ====
section
/-! DEFINITION. The statements for the provers, each a `Prop` over the model. -/

open Sys2Proof Sys2Proof.Machine

/-! ### Command words and the core's step -/

/-- 30_encoding.md R71: the seven codes decode to the seven commands, and no other word decodes to a command. -/
def Obligations.OpcodeMapDecodes : Prop :=
  decodeWord 0x01 = .ok .teaEnc ∧ decodeWord 0x02 = .ok .teaDec ∧ decodeWord 0x10 = .ok .chainInit ∧
    decodeWord 0x11 = .ok .chainEnc ∧ decodeWord 0x12 = .ok .chainDec ∧ decodeWord 0x20 = .ok .msgEnc ∧
    decodeWord 0x21 = .ok .msgDec ∧
    ∀ w i, decodeWord w = .ok i → w ∈ [0x01#8, 0x02#8, 0x10#8, 0x11#8, 0x12#8, 0x20#8, 0x21#8]

/-- 30_encoding.md R70, R71: decoding the bytes of a command gives it back and leaves the bytes after it; a word that
decodes to a command is that command's code. That a command is one whole byte, its bits numbered as in the table, is
deduced from R70 (log 14). -/
def Obligations.DecodeInvertsEncode : Prop :=
  (∀ i rest, decodeBytes (encodeBytes i ++ rest) = .ok (i, rest)) ∧
    ∀ w i rest, decodeBytes (w :: rest) = .ok (i, rest) → w = encode i

/-- 30_encoding.md R72: a reserved word spells no command; written while the core is idle it runs, in the core's next
move, a command that changes `STATUS` and `RES_LEN` only (it is then over, and the hidden state is none), touches no
buffer and takes no draw, ends with `ILLEGAL_COMMAND` and 0, and does not keep a later write of `CMD` from starting a
command. That the agent to move is the first in the list of moves to come is the model's choice (log 9). That the core
holds the command and the units' state in fields which every end of a command sets to none is deduced (log 19, log 26).
-/
def Obligations.ReservedCommandOnlyReports : Prop :=
  ∀ (s : State) (c : BitVec 8) (after : List Move),
    (c.toNat = 0x00 ∨ (0x03 ≤ c.toNat ∧ c.toNat ≤ 0x0F) ∨ (0x13 ≤ c.toNat ∧ c.toNat ≤ 0x1F) ∨ 0x22 ≤ c.toNat) →
    busyBit s.status = false → s.pending = .host (.writeReg 0x00 (.byte c)) :: .core :: after →
    (∀ i, decodeWord c ≠ .ok i) ∧
      ∃ t, Host.Core.run core 2 s = .next t ∧
        t = { s with
          status := 0x15, resLen := 0, running := none, bt := none, mc := none, pending := after } ∧
        ∀ d later, after = .host (.writeReg 0x00 (.byte d)) :: later →
          step t = .next { t with status := 0x20, running := some d, pending := later }

/-- 70_reset_and_hazards.md R236: when the running command's byte decodes to `i`, the core's step is `exec i`; where the
core's own move is next, that move is used up. R236 says of the time of this step only that it is weakly fair. That the
core moves when its move is next in the list of moves is the model's choice (log 9), and that it moves while the host
waits and when no move is left is the model's form of weak fairness, its choice too (log 11). That the byte of the `CMD`
write is held until the command's end is deduced (log 26). -/
def Obligations.CoreStepRunsDecodedCommand : Prop :=
  ∀ (s : State) (c : BitVec 8) (i : Instr), s.running = some c → decodeWord c = .ok i →
    (∀ after, s.pending = .core :: after → step s = exec i { s with pending := after }) ∧
      (∀ after, s.pending = .wait :: after → step s = exec i s) ∧
      (s.pending = [] → step s = exec i s)

/-- 70_reset_and_hazards.md R236, 30_encoding.md R70, R71, log 10: the state with a command word placed runs exactly
that command in its next step, from the state after the `CMD` write. That the table's decoder gives the command back
rests on 30_encoding.md R70 and R71 and on how the table's bits lie in the byte (log 14, deduced); that the `CMD` byte
is held until the command runs is deduced (log 26), and that the placed core move comes next is the model's choice (log
9, log 10). -/
def Obligations.PlacedCommandRunsNext : Prop :=
  ∀ (s : State) (i : Instr),
    decodeTableWord 8 (encode i).toNat = some i ∧
      step (s.withFetchWord 8 (encode i).toNat) = exec i { s with status := 0x20, running := some (encode i) }

/-- 10_state.md R23, 70_reset_and_hazards.md R236: a host write of `CMD` while idle sets `BUSY`, clears `DONE` and
`ERR`, starts the command, and changes nothing else. That the agent to move is the first in the list of moves to come is
the model's choice (log 9). -/
def Obligations.CommandWriteStartsCommand : Prop :=
  ∀ (s : State) (c : BitVec 8) (after : List Move), busyBit s.status = false →
    s.pending = .host (.writeReg 0x00 (.byte c)) :: after →
    ∃ t, step s = .next t ∧ t = { s with status := 0x20, running := some c, pending := after } ∧
      busyBit t.status = true ∧ doneBit t.status = false ∧ errField t.status = 0x0

/-- 60_exceptions.md R200, R211, 70_reset_and_hazards.md R236: every command ends in its one step: not busy, done,
reserved bits 0, no command running, nothing held; and no command writes `KEY`, `IN_LEN`, `OUT_CAP`, `IN`, the moves to
come, what the host saw, or the parameters (10_state.md R42, R25). The one exception is a block command while `BLK`
holds no value after a message command, which faults (10_state.md R38, R43). That a command also ends in a state where
`KEY`, `BLK`, `IN_LEN` or `OUT_CAP` is unwritten since reset, where the spec's model faults, is the model's choice (log
1, log 2). That the core holds the command and the units' state in fields which every end of a command sets to none is
deduced (log 19, log 26). The moves to come, the record of what the host observed and the parameters are fields of the
model's choice (log 9, log 12, log 15). -/
def Obligations.EveryCommandEndsInOneStep : Prop :=
  ∀ (i : Instr) (s : State),
    (s.written.blk ≠ .nothing ∨ i = .chainInit ∨ i = .msgEnc ∨ i = .msgDec →
      ∃ t, exec i s = .next t ∧
        busyBit t.status = false ∧ doneBit t.status = true ∧ reservedBits t.status = 0 ∧
        t.running = none ∧ t.bt = none ∧ t.mc = none ∧
        t.key = s.key ∧ t.inLen = s.inLen ∧ t.outCap = s.outCap ∧ t.inBuf = s.inBuf ∧
        t.written.key = s.written.key ∧ t.written.inLen = s.written.inLen ∧ t.written.outCap = s.written.outCap ∧
        t.pending = s.pending ∧ t.observed = s.observed ∧ t.cfg = s.cfg) ∧
      (s.written.blk = .nothing → i ≠ .chainInit → i ≠ .msgEnc → i ≠ .msgDec →
        exec i s = .fault (.unwrittenRegister .blk))

/-- The first block MSG_DEC recovers: `IN[0 .. 8)` decrypted directly (44_message_codec.md R167). -/
def firstRecovered (s : State) : Block :=
  decryptBlock
    ⟨Memory.read s.inBuf 0, Memory.read s.inBuf 1, Memory.read s.inBuf 2, Memory.read s.inBuf 3,
     Memory.read s.inBuf 4, Memory.read s.inBuf 5, Memory.read s.inBuf 6, Memory.read s.inBuf 7⟩ s.key

/-- The N that MSG_DEC recovers: the low 3 bits of the first recovered byte (44_message_codec.md R167). -/
def recoveredN (s : State) : Nat := (firstRecovered s).b0.toNat % 8

/-- 60_exceptions.md R201, R202, R205: which codes each command that completes reports, and which lengths: a success of
a block command 8, of CHAIN_INIT 0, of MSG_ENC T and of MSG_DEC Lout = C - N - 10; `BUFFER_TOO_SMALL` the needed T or
Lout; every other failure 0. That a command completes where a register it reads is unwritten since reset, where the
spec's model faults (10_state.md R38), is the model's choice (log 1, log 2). MSG_DEC's code for the overrun is the
parameter of R169, held as log 15 says. A byte of `IN` that nothing has written reads as log 3's choice. -/
def Obligations.StatusCodesOfEachCommand : Prop :=
  ∀ (i : Instr) (s t : State), exec i s = .next t →
    (i = .teaEnc ∨ i = .teaDec ∨ i = .chainEnc ∨ i = .chainDec → errField t.status = 0x0 ∧ t.resLen = 8) ∧
      (i = .chainInit → errField t.status = 0x0 ∧ t.resLen = 0) ∧
      (i = .msgEnc → errField t.status = 0x0 ∨ errField t.status = 0x1 ∨ errField t.status = 0x3) ∧
      (i = .msgDec →
        errField t.status = 0x0 ∨ errField t.status = 0x2 ∨ errField t.status = 0x3 ∨ errField t.status = 0x4) ∧
      (i = .msgEnc → errField t.status = 0x0 ∨ errField t.status = 0x3 → t.resLen.toNat = totalLength s.inLen.toNat) ∧
      (i = .msgDec → errField t.status = 0x0 ∨ errField t.status = 0x3 →
        t.resLen.toNat = s.inLen.toNat - recoveredN s - 10) ∧
      (errField t.status ≠ 0x0 → errField t.status ≠ 0x3 → t.resLen = 0)

/-- 10_state.md R34, 41_block_transform.md R108, and 10_state.md R37, which the spec marks as derived: no command reads
`STATUS`, `RES_LEN`, which command the core believes is running, or the units' hidden state, so nothing hidden carries
from one command to the next. That this state stands in fields of State is deduced (log 19, log 26). -/
def Obligations.NoHiddenStateCarries : Prop :=
  ∀ (i : Instr) (s : State) (st : BitVec 8) (rl : Len) (r : Option (BitVec 8)) (b : Option BtState) (m : Option McState),
    exec i { s with status := st, resLen := rl, running := r, bt := b, mc := m } = exec i s

/-! ### Byte-order normalizer -/

/-- 42_normalizer.md R121: wire order is most significant byte first, and the two conversions are inverses. -/
def Obligations.NormalizerConversionsInvert : Prop :=
  (∀ b0 b1 b2 b3 : Byte,
      (wire32ToWord b0 b1 b2 b3).toNat = b0.toNat * 2 ^ 24 + b1.toNat * 2 ^ 16 + b2.toNat * 2 ^ 8 + b3.toNat ∧
        wordToWire32 (wire32ToWord b0 b1 b2 b3) = (b0, b1, b2, b3)) ∧
    ∀ w : Word,
      wordToWire32 w = (w.extractLsb' 24 8, w.extractLsb' 16 8, w.extractLsb' 8 8, w.extractLsb' 0 8) ∧
        wire32ToWord (wordToWire32 w).1 (wordToWire32 w).2.1 (wordToWire32 w).2.2.1 (wordToWire32 w).2.2.2 = w

/-- 42_normalizer.md R124, and R125, which the spec marks as derived from R121 and R124: which four bytes, in wire
order, form the words y, z of a block and a, b, c, d of a key; a block of two words is the bytes of the first, then of
the second, and this undoes the word view of a block, and the other way round. -/
def Obligations.WordViewsOfBlockAndKey : Prop :=
  (∀ B : Block,
    blockWords B = (wire32ToWord B.b0 B.b1 B.b2 B.b3, wire32ToWord B.b4 B.b5 B.b6 B.b7)) ∧
    (∀ K : Key,
      (keyWords K).a = wire32ToWord K.k0 K.k1 K.k2 K.k3 ∧ (keyWords K).b = wire32ToWord K.k4 K.k5 K.k6 K.k7 ∧
        (keyWords K).c = wire32ToWord K.k8 K.k9 K.k10 K.k11 ∧ (keyWords K).d = wire32ToWord K.k12 K.k13 K.k14 K.k15) ∧
    (∀ y z : Word,
      blockToBytes (wordsBlock y z) =
        [(wordToWire32 y).1, (wordToWire32 y).2.1, (wordToWire32 y).2.2.1, (wordToWire32 y).2.2.2,
         (wordToWire32 z).1, (wordToWire32 z).2.1, (wordToWire32 z).2.2.1, (wordToWire32 z).2.2.2]) ∧
    (∀ B : Block, wordsBlock (blockWords B).1 (blockWords B).2 = B) ∧
    ∀ y z : Word, blockWords (wordsBlock y z) = (y, z)

/-- 42_normalizer.md R123: the 16-bit conversions, most significant byte first, are inverses. -/
def Obligations.HalfWordConversionsInvert : Prop :=
  (∀ b0 b1 : Byte,
      (wire16ToHalf b0 b1).toNat = b0.toNat * 2 ^ 8 + b1.toNat ∧ halfToWire16 (wire16ToHalf b0 b1) = (b0, b1)) ∧
    ∀ h : Half,
      halfToWire16 h = (h.extractLsb' 8 8, h.extractLsb' 0 8) ∧
        wire16ToHalf (halfToWire16 h).1 (halfToWire16 h).2 = h

/-! ### Block transform -/

/-- 41_block_transform.md R100, R101: `encryptBlock` is 16 rounds; round r + 1 uses the accumulator (r + 1) × DELTA,
adds to `y` from `z` under `a`, `b`, then to `z` from the new `y` under `c`, `d`. -/
def Obligations.EncryptBlockIsSixteenRounds : Prop :=
  ∀ (B : Block) (K : Key) (y z : Nat → Word),
    (y 0, z 0) = blockWords B →
    (∀ r < 16,
      y (r + 1) = y r + ((((z r) <<< 4) + (keyWords K).a) ^^^ (z r + BitVec.ofNat 32 ((r + 1) * 0x9E3779B9)) ^^^
          (((z r) >>> 5) + (keyWords K).b)) ∧
        z (r + 1) = z r + ((((y (r + 1)) <<< 4) + (keyWords K).c) ^^^
          (y (r + 1) + BitVec.ofNat 32 ((r + 1) * 0x9E3779B9)) ^^^ (((y (r + 1)) >>> 5) + (keyWords K).d))) →
    encryptBlock B K = wordsBlock (y 16) (z 16)

/-- 41_block_transform.md R100, R102: `decryptBlock` is 16 rounds; round r + 1 uses the accumulator (16 - r) × DELTA,
subtracts from `z` from `y` under `c`, `d`, then from `y` from the new `z` under `a`, `b`. -/
def Obligations.DecryptBlockIsSixteenRounds : Prop :=
  ∀ (B : Block) (K : Key) (y z : Nat → Word),
    (y 0, z 0) = blockWords B →
    (∀ r < 16,
      z (r + 1) = z r - ((((y r) <<< 4) + (keyWords K).c) ^^^ (y r + BitVec.ofNat 32 ((16 - r) * 0x9E3779B9)) ^^^
          (((y r) >>> 5) + (keyWords K).d)) ∧
        y (r + 1) = y r - ((((z (r + 1)) <<< 4) + (keyWords K).a) ^^^
          (z (r + 1) + BitVec.ofNat 32 ((16 - r) * 0x9E3779B9)) ^^^ (((z (r + 1)) >>> 5) + (keyWords K).b))) →
    decryptBlock B K = wordsBlock (y 16) (z 16)

/-- 41_block_transform.md R106, which the spec marks as derived from R101 and R102: the two functions are exact
inverses, both ways, for every block and key. -/
def Obligations.BlockTransformInverse : Prop :=
  ∀ (B : Block) (K : Key), decryptBlock (encryptBlock B K) K = B ∧ encryptBlock (decryptBlock B K) K = B

/-- 41_block_transform.md R104: TEA_ENC completes: `BLK` is encrypted under `KEY`, `RES_LEN` is 8, `STATUS` is done with
`OK`, and everything else is unchanged. A `BLK` that a message command left without a value faults (10_state.md R38,
R43). That it runs on a `KEY` or `BLK` unwritten since reset is the model's choice (log 1, log 2). That the core holds
the command and the units' state in fields which every end of a command sets to none is deduced (log 19, log 26). -/
def Obligations.TeaEncEncryptsBlk : Prop :=
  ∀ s : State,
    (s.written.blk ≠ .nothing → ∃ t, exec .teaEnc s = .next t ∧
      t = { s with
        blk := encryptBlock s.blk s.key, written := { s.written with blk := .value }
        status := 0x10, resLen := 8, running := none, bt := none, mc := none }) ∧
      (s.written.blk = .nothing → exec .teaEnc s = .fault (.unwrittenRegister .blk))

/-- 41_block_transform.md R105: TEA_DEC completes: `BLK` is decrypted under `KEY`, `RES_LEN` is 8, `STATUS` is done with
`OK`, and everything else is unchanged; the fault and log 1, log 2 as for TEA_ENC. That the core holds the command and
the units' state in fields which every end of a command sets to none is deduced (log 19, log 26). -/
def Obligations.TeaDecDecryptsBlk : Prop :=
  ∀ s : State,
    (s.written.blk ≠ .nothing → ∃ t, exec .teaDec s = .next t ∧
      t = { s with
        blk := decryptBlock s.blk s.key, written := { s.written with blk := .value }
        status := 0x10, resLen := 8, running := none, bt := none, mc := none }) ∧
      (s.written.blk = .nothing → exec .teaDec s = .fault (.unwrittenRegister .blk))

/-- 41_block_transform.md R105, R106 (which the spec marks as derived from R101 and R102): TEA_DEC right after TEA_ENC
under the same `KEY` restores `BLK`, and TEA_ENC right after TEA_DEC does too; nothing but `STATUS`, `RES_LEN` and the
mark that `BLK` is written differs from the start. `BLK` must hold a value or be unwritten since reset; that both then
complete on a `KEY` or `BLK` unwritten since reset, where the spec's model faults (10_state.md R38), is the model's
choice (log 1, log 2). That the core holds the command and the units' state in fields which every end of a command sets
to none is deduced (log 19, log 26). -/
def Obligations.TeaDecUndoesTeaEnc : Prop :=
  ∀ s : State, s.written.blk ≠ .nothing →
    (∃ t u, exec .teaEnc s = .next t ∧ exec .teaDec t = .next u ∧
      u = { s with
        written := { s.written with blk := .value }
        status := 0x10, resLen := 8, running := none, bt := none, mc := none }) ∧
      ∃ t u, exec .teaDec s = .next t ∧ exec .teaEnc t = .next u ∧
        u = { s with
          written := { s.written with blk := .value }
          status := 0x10, resLen := 8, running := none, bt := none, mc := none }

/-! ### Chaining engine -/

/-- 43_chaining.md R131: CHAIN_INIT, encoded 0x10, completes in every state: the chaining state is zeroed, `RES_LEN` is
0, `STATUS` is done with `OK`, and everything else is unchanged; it reads no register that can be unwritten. That the
core holds the command and the units' state in fields which every end of a command sets to none is deduced (log 19, log
26). -/
def Obligations.ChainInitZeroesChain : Prop :=
  decodeWord 0x10 = .ok .chainInit ∧ ∀ s : State, ∃ t, exec .chainInit s = .next t ∧
    t = { s with
      chain := ⟨Block.zero, Block.zero, 0⟩
      status := 0x10, resLen := 0, running := none, bt := none, mc := none } ∧
    unwrittenReads .chainInit s = []

/-- 43_chaining.md R132, R133: CHAIN_ENC completes with M = BLK ^ PREV_OUT, E = encrypt M, O = E ^ PREV_MIX: `BLK` and
`PREV_OUT` become O, `PREV_MIX` becomes M, `BLK_COUNT` counts one modulo 2^32; all else is unchanged; the fault and log
1, log 2 as for TEA_ENC. That the core holds the command and the units' state in fields which every end of a command
sets to none is deduced (log 19, log 26). -/
def Obligations.ChainEncStepsChain : Prop :=
  (∀ (s : State) (M E O : Block), s.written.blk ≠ .nothing →
    M = xor8 s.blk s.chain.prevOut → E = encryptBlock M s.key → O = xor8 E s.chain.prevMix →
    ∃ t, exec .chainEnc s = .next t ∧
      t = { s with
        blk := O, written := { s.written with blk := .value }
        chain := ⟨O, M, s.chain.blkCount + 1⟩
        status := 0x10, resLen := 8, running := none, bt := none, mc := none }) ∧
    ∀ s : State, s.written.blk = .nothing → exec .chainEnc s = .fault (.unwrittenRegister .blk)

/-- 43_chaining.md R133, R134: CHAIN_DEC completes with E = BLK ^ PREV_MIX, M = decrypt E, P = M ^ PREV_OUT: `BLK`
becomes P, `PREV_OUT` the block consumed, `PREV_MIX` becomes M, `BLK_COUNT` counts one modulo 2^32; all else is
unchanged; the fault and log 1, log 2 as for TEA_ENC. That the core holds the command and the units' state in fields
which every end of a command sets to none is deduced (log 19, log 26). -/
def Obligations.ChainDecStepsChain : Prop :=
  (∀ (s : State) (E M P : Block), s.written.blk ≠ .nothing →
    E = xor8 s.blk s.chain.prevMix → M = decryptBlock E s.key → P = xor8 M s.chain.prevOut →
    ∃ t, exec .chainDec s = .next t ∧
      t = { s with
        blk := P, written := { s.written with blk := .value }
        chain := ⟨s.blk, M, s.chain.blkCount + 1⟩
        status := 0x10, resLen := 8, running := none, bt := none, mc := none }) ∧
    ∀ s : State, s.written.blk = .nothing → exec .chainDec s = .fault (.unwrittenRegister .blk)

/-- 43_chaining.md R138, which the spec marks as derived from R130, R132 and R134: from the zero chaining state the
first block is transformed directly, both ways. That this also holds where `KEY` or `BLK` is unwritten since reset,
where the spec's model faults (10_state.md R38), is the model's choice (log 1, log 2). -/
def Obligations.FirstBlockIsDirect : Prop :=
  ∀ s : State, s.written.blk ≠ .nothing → s.chain = ⟨Block.zero, Block.zero, 0⟩ →
    (∃ t, exec .chainEnc s = .next t ∧ t.blk = encryptBlock s.blk s.key) ∧
      ∃ t, exec .chainDec s = .next t ∧ t.blk = decryptBlock s.blk s.key

/-- 43_chaining.md R135, which the spec marks as derived from R132, R134 and R106: CHAIN_INIT and CHAIN_ENC over P_1 ..
P_n give O_1 .. O_n; CHAIN_INIT and CHAIN_DEC over these under the same key, in whatever other state, give P_1 .. P_n
back and leave equal chaining registers. R106 rests on 41_block_transform.md R101 and R102. That the steps complete
where `KEY` is unwritten since reset, where the spec's model faults (10_state.md R38), is the model's choice (log 1, log
2). -/
def Obligations.ChainDecUndoesChainEnc : Prop :=
  ∀ (s s' : State) (Ps : List Block), s'.key = s.key →
    ∃ s1 s1' Os t t', exec .chainInit s = .next s1 ∧ exec .chainInit s' = .next s1' ∧
      driveChain .chainEnc s1 Ps = some (Os, t) ∧ Os.length = Ps.length ∧
      driveChain .chainDec s1' Os = some (Ps, t') ∧
      t'.chain.prevOut = t.chain.prevOut ∧ t'.chain.prevMix = t.chain.prevMix ∧
      t'.chain.blkCount = t.chain.blkCount

/-- 43_chaining.md R133, R131: every chaining step of either kind adds 1 to `BLK_COUNT` modulo 2^32; after CHAIN_INIT
and k of them, in whatever mixture, it is k modulo 2^32; and no block depends on `BLK_COUNT`. That the steps complete
where `KEY`, or in the last clause `BLK`, is unwritten since reset, where the spec's model faults (R132, R134,
10_state.md R38), is the model's choice (log 1, log 2). -/
def Obligations.BlockCounterCountsSteps : Prop :=
  (∀ (i : Instr) (s t : State), i = .chainEnc ∨ i = .chainDec → exec i s = .next t →
    t.chain.blkCount.toNat = (s.chain.blkCount.toNat + 1) % 2 ^ 32) ∧
    (∀ (s s1 : State) (steps : List (Instr × Block)), (∀ p ∈ steps, p.1 = .chainEnc ∨ p.1 = .chainDec) →
      exec .chainInit s = .next s1 →
      ∃ Os t, driveSteps s1 steps = some (Os, t) ∧ t.chain.blkCount.toNat = steps.length % 2 ^ 32) ∧
    ∀ (i : Instr) (s : State) (n : Len), i = .chainEnc ∨ i = .chainDec → s.written.blk ≠ .nothing →
      ∃ t t', exec i s = .next t ∧ exec i { s with chain := { s.chain with blkCount := n } } = .next t' ∧
        t'.blk = t.blk ∧ t'.chain.prevOut = t.chain.prevOut ∧ t'.chain.prevMix = t.chain.prevMix

/-! ### Message codec: layout and encrypt -/

/-- 44_message_codec.md R155: N is in 0 .. 7 and is the least that makes the total a multiple of 8; for 4 bytes it is 2
and the total 16. -/
def Obligations.FillCountIsLeast : Prop :=
  (∀ L : Nat, fillCountOf L = (8 - (L + 10) % 8) % 8 ∧ fillCountOf L ≤ 7 ∧ (L + 10 + fillCountOf L) % 8 = 0 ∧
      ∀ m, (L + 10 + m) % 8 = 0 → fillCountOf L ≤ m) ∧
    fillCountOf 4 = 2 ∧ totalLength 4 = 16

/-- 44_message_codec.md R156, which the spec marks as derived from R155: for every L ≥ 1 the total is L + N + 10, a
multiple of 8, at least 16, between L + 10 and L + 17, and the layout is cut into T / 8 blocks. -/
def Obligations.TotalLengthBounds : Prop :=
  ∀ (L : Nat), 1 ≤ L →
    totalLength L = 1 + fillCountOf L + 2 + L + 7 ∧ totalLength L = L + fillCountOf L + 10 ∧
      totalLength L % 8 = 0 ∧ L + 10 ≤ totalLength L ∧ totalLength L ≤ L + 17 ∧ 16 ≤ totalLength L ∧
      ∀ (d : Draws) (pt : List Byte), pt.length = L →
        (bytesToBlocks (layout (fillCountOf L) d pt)).length = totalLength L / 8

/-- 44_message_codec.md R164, which the spec marks as derived from R153 and R155: the fill count and total at the
lengths 1, 6, 7, 13 and 14; lengths of 6 and of 7 modulo 8 always give N = 0 and N = 7; and under one key and equal
draws the first ciphertext block depends on N and the first 5 - N plaintext bytes only. -/
def Obligations.LengthCornerCases : Prop :=
  (fillCountOf 1 = 5 ∧ totalLength 1 = 16 ∧ fillCountOf 6 = 0 ∧ totalLength 6 = 16 ∧ fillCountOf 7 = 7 ∧
    totalLength 7 = 24 ∧ fillCountOf 13 = 1 ∧ totalLength 13 = 24 ∧ fillCountOf 14 = 0 ∧ totalLength 14 = 24) ∧
    (∀ L : Nat, (L % 8 = 6 → fillCountOf L = 0) ∧ (L % 8 = 7 → fillCountOf L = 7)) ∧
    ∀ (K : Key) (d : Draws) (n : Nat) (pt pt' : List Byte), fillCountOf pt.length = n → fillCountOf pt'.length = n →
      pt'.take (5 - n) = pt.take (5 - n) →
      (encryptMessage K n d pt').take 8 = (encryptMessage K n d pt).take 8

/-- 44_message_codec.md R153: which of the five sources each layout offset takes. -/
def Obligations.LayoutSources : Prop :=
  ∀ (n : Nat) (d : Draws) (pt : List Byte), n ≤ 7 →
    (layout n d pt).length = 1 + n + 2 + pt.length + 7 ∧
      (layout n d pt)[0]? = some ((d.hdr &&& 0xF8) ||| BitVec.ofNat 8 n) ∧
      (∀ j, 1 ≤ j → j ≤ n → (layout n d pt)[j]? = some d.fill) ∧
      (layout n d pt)[n + 1]? = some d.a ∧ (layout n d pt)[n + 2]? = some d.b ∧
      (∀ j, j < pt.length → (layout n d pt)[n + 3 + j]? = pt[j]?) ∧
      ∀ j, j < 7 → (layout n d pt)[n + 3 + pt.length + j]? = some 0x00

/-- 44_message_codec.md R161, R171: the ciphertext over the layout's blocks P_1 .. P_n from the zero state is O_1 .. O_n
with M_k = P_k ^ O_(k-1), O_k = encrypt M_k ^ M_(k-1). -/
def Obligations.EncryptStreamFollowsChain : Prop :=
  ∀ (K : Key) (Ps : List Block) (M O : Nat → Block),
    M 0 = Block.zero → O 0 = Block.zero →
    (∀ k (h : k < Ps.length), M (k + 1) = xor8 Ps[k] (O k) ∧ O (k + 1) = xor8 (encryptBlock (M (k + 1)) K) (M k)) →
    (chainEncAll K Chain.zero Ps).1.length = Ps.length ∧
      ∀ k, k < Ps.length → (chainEncAll K Chain.zero Ps).1[k]? = some (O (k + 1))

/-- 44_message_codec.md R171: the recovered blocks of a ciphertext O_1 .. O_n from the zero state are P_1 .. P_n with
M_k = decrypt (O_k ^ M_(k-1)), P_k = M_k ^ O_(k-1). -/
def Obligations.DecryptStreamFollowsChain : Prop :=
  ∀ (K : Key) (Os : List Block) (M O : Nat → Block),
    M 0 = Block.zero → O 0 = Block.zero →
    (∀ k (h : k < Os.length), O (k + 1) = Os[k] ∧ M (k + 1) = decryptBlock (xor8 Os[k] (M k)) K) →
    (chainDecAll K Chain.zero Os).1.length = Os.length ∧
      ∀ k, k < Os.length → (chainDecAll K Chain.zero Os).1[k]? = some (xor8 (M (k + 1)) (O k))

/-- 44_message_codec.md R150, R161, R162, R163: MSG_ENC completes with `OK` whenever 1 ≤ L ≤ L_MAX and T ≤ `OUT_CAP`:
`RES_LEN` is T, `OUT[0 .. T)` is the chained encryption of the layout of N, the four draws and `IN[0 .. L)`, and every
other byte of `OUT` reads as before. The other registers: `BLK` and the chaining registers are free (log 4, log 5), the
RNG has given four bytes, all else is unchanged. Bytes of `IN` that nothing has written read as log 3 says, `BLK` is
left as log 4 says, and that MSG_ENC completes where `KEY`, `IN_LEN` or `OUT_CAP` is unwritten since reset, where the
spec's model faults (R150, 10_state.md R38), is the model's choice (log 1, log 2). The draws are the settled bytes, then
free values (log 8). That the core holds the command and the units' state in fields which every end of a command sets to
none is deduced (log 19, log 26). -/
def Obligations.MsgEncEncryptsMessage : Prop :=
  ∀ (s : State) (L : Nat), L = s.inLen.toNat → 1 ≤ L → L ≤ 0xFFFFFFEE → totalLength L ≤ s.outCap.toNat →
    ∃ t, exec .msgEnc s = .next t ∧ t.status = 0x10 ∧ t.resLen.toNat = totalLength L ∧
      Memory.readBytes t.outBuf 0 (totalLength L) =
        blocksToBytes (chainEncAll s.key Chain.zero
          (bytesToBlocks (layout (fillCountOf L) (drawFour s).1 (Memory.readBytes s.inBuf 0 L)))).1 ∧
      (∀ a, totalLength L ≤ a → Memory.read t.outBuf a = Memory.read s.outBuf a) ∧
      t.rngQueue = s.rngQueue.drop 4 ∧ t.rngDrawn = s.rngDrawn + 4 ∧
      t.key = s.key ∧ t.inLen = s.inLen ∧ t.outCap = s.outCap ∧ t.inBuf = s.inBuf ∧
      t.pending = s.pending ∧ t.observed = s.observed ∧ t.cfg = s.cfg ∧ t.running = none ∧
      t.written = { s.written with blk := .nothing }

/-- 44_message_codec.md R157, R158, R159, R160: the failures of MSG_ENC in their order: an empty plaintext and one
longer than L_MAX end with `INVALID_INPUT` and 0 whatever `OUT_CAP` is; else a capacity below T ends with
`BUFFER_TOO_SMALL` and T. No byte of `OUT` is written and no draw is taken. That MSG_ENC ends with a status where
`IN_LEN` or `OUT_CAP` is unwritten since reset, where the spec's model faults (R150, 10_state.md R38), is the model's
choice (log 1, log 2). -/
def Obligations.MsgEncFailuresInOrder : Prop :=
  ∀ (s : State) (L : Nat), L = s.inLen.toNat →
    (L = 0 ∨ 0xFFFFFFEE < L →
      ∃ t, exec .msgEnc s = .next t ∧ t.status = 0x11 ∧ t.resLen = 0 ∧
        t.outBuf = s.outBuf ∧ t.rngQueue = s.rngQueue ∧ t.rngDrawn = s.rngDrawn) ∧
      (1 ≤ L → L ≤ 0xFFFFFFEE → s.outCap.toNat < totalLength L →
        ∃ t, exec .msgEnc s = .next t ∧ t.status = 0x13 ∧ t.resLen.toNat = totalLength L ∧
          t.outBuf = s.outBuf ∧ t.rngQueue = s.rngQueue ∧ t.rngDrawn = s.rngDrawn)

/-- 20_memory.md R56, 44_message_codec.md R154: MSG_ENC draws exactly four bytes when it succeeds and none otherwise,
the settled bytes first, then a free value for each draw beyond them (log 8), in the order header, fill, a, b; no other
command draws. An `RNG` line settles the next draws with its bytes (30_encoding.md R76) and changes nothing else. That
its bytes replace those which an earlier line settled and no command has drawn yet is the model's choice (log 8): R76
does not say what becomes of them. That a draw beyond the settled bytes is a free value numbered by a counter of the
model is log 8's form of R56's free draw. That a command completes where a register it reads is unwritten since reset,
where the spec's model faults (10_state.md R38), is the model's choice (log 1, log 2). That the agent to move is the
first in the list of moves to come is the model's choice (log 9). -/
def Obligations.OnlyMsgEncDraws : Prop :=
  (∀ (i : Instr) (s t : State), exec i s = .next t →
    (i = .msgEnc ∧ errField t.status = 0x0 ∧ t.rngQueue = s.rngQueue.drop 4 ∧ t.rngDrawn = s.rngDrawn + 4) ∨
      ((i = .msgEnc → errField t.status ≠ 0x0) ∧ t.rngQueue = s.rngQueue ∧ t.rngDrawn = s.rngDrawn)) ∧
    (∀ (s : State) (h f a b : Byte) (rest : List Byte), s.rngQueue = h :: f :: a :: b :: rest →
      (drawFour s).1 = ⟨h, f, a, b⟩) ∧
    (∀ s : State, (drawFour s).1 =
      ⟨(s.rngQueue[0]?).getD (Config.rngByte s.rngDrawn), (s.rngQueue[1]?).getD (Config.rngByte (s.rngDrawn + 1)),
       (s.rngQueue[2]?).getD (Config.rngByte (s.rngDrawn + 2)), (s.rngQueue[3]?).getD (Config.rngByte (s.rngDrawn + 3))⟩) ∧
    ∀ (s : State) (bs : List Byte) (after : List Move), s.pending = .rng bs :: after →
      step s = .next { s with rngQueue := bs, pending := after }

/-! ### Message codec: decrypt -/

/-- 44_message_codec.md R166: a length below 16 or not a multiple of 8 ends MSG_DEC with `INVALID_LENGTH` and 0, nothing
is written to `OUT`, and what `IN` holds makes no difference. That MSG_DEC ends with a status where `IN_LEN` is
unwritten since reset, where the spec's model faults (R151, 10_state.md R38), is the model's choice (log 1, log 2). -/
def Obligations.MsgDecRejectsLength : Prop :=
  ∀ (s : State) (m : Memory), s.inLen.toNat < 16 ∨ s.inLen.toNat % 8 ≠ 0 →
    ∃ t, exec .msgDec s = .next t ∧ t.status = 0x12 ∧ t.resLen = 0 ∧ t.outBuf = s.outBuf ∧
      exec .msgDec { s with inBuf := m } = .next { t with inBuf := m }

/-- The fill bytes 1 .. N of the first recovered block agree, or there are fewer than two (44_message_codec.md R168). -/
def fillAgrees (s : State) : Prop :=
  ∀ j, 2 ≤ j → j ≤ recoveredN s → (blockToBytes (firstRecovered s))[j]? = (blockToBytes (firstRecovered s))[1]?

/-- The recovered layout PL: the blocks of `IN[0 .. C)` through the decrypt step, in order, from the zero state
(44_message_codec.md R171). -/
def recoveredLayout (s : State) : List Byte :=
  blocksToBytes (chainDecAll s.key Chain.zero (bytesToBlocks (Memory.readBytes s.inBuf 0 s.inLen.toNat))).1

/-- 44_message_codec.md R167, R168: with a legal length, a fill mismatch in the first recovered block ends MSG_DEC with
`INTEGRITY_CHECK_FAILED` and 0 before every later check; nothing is written to `OUT`. That MSG_DEC ends with a status
where `IN_LEN` or `KEY` is unwritten since reset, where the spec's model faults (R151, 10_state.md R38), is the model's
choice (log 1, log 2). A byte of `IN` that nothing has written reads as log 3's choice. -/
def Obligations.MsgDecChecksFill : Prop :=
  ∀ s : State, 16 ≤ s.inLen.toNat → s.inLen.toNat % 8 = 0 → ¬ fillAgrees s →
    ∃ t, exec .msgDec s = .next t ∧ t.status = 0x14 ∧ t.resLen = 0 ∧ t.outBuf = s.outBuf

/-- 44_message_codec.md R169: with a legal length and agreeing fill, N + 10 > C ends MSG_DEC with the code that the
parameter names and 0; nothing is written to `OUT`; this needs C = 16 and N = 7, and MSG_ENC makes N = 7 only with T of
24 or more. The parameter's default is `INTEGRITY_CHECK_FAILED`; log 15 says where it is held. That MSG_DEC ends with a
status where `IN_LEN` or `KEY` is unwritten since reset, where the spec's model faults (R151, 10_state.md R38), is the
model's choice (log 1, log 2). A byte of `IN` that nothing has written reads as log 3's choice. -/
def Obligations.MsgDecChecksOverrun : Prop :=
  State.reset.cfg.overrun = .integrityCheckFailed ∧ (∀ L : Nat, fillCountOf L = 7 → 24 ≤ totalLength L) ∧
  ∀ s : State, 16 ≤ s.inLen.toNat → s.inLen.toNat % 8 = 0 → fillAgrees s →
    (s.inLen.toNat < recoveredN s + 10 ↔ s.inLen.toNat = 16 ∧ recoveredN s = 7) ∧
      (s.inLen.toNat < recoveredN s + 10 →
        ∃ t, exec .msgDec s = .next t ∧
          (s.cfg.overrun = .integrityCheckFailed → t.status = 0x14) ∧
          (s.cfg.overrun = .invalidLength → t.status = 0x12) ∧ t.resLen = 0 ∧ t.outBuf = s.outBuf)

/-- 44_message_codec.md R170, R176: when the earlier checks pass, a capacity below Lout = C - N - 10 ends MSG_DEC with
`BUFFER_TOO_SMALL` and Lout, whatever the trailer holds; nothing is written to `OUT`. That MSG_DEC ends with a status
where `IN_LEN`, `KEY` or `OUT_CAP` is unwritten since reset, where the spec's model faults (R151, 10_state.md R38), is
the model's choice (log 1, log 2). A byte of `IN` that nothing has written reads as log 3's choice. -/
def Obligations.MsgDecChecksCapacity : Prop :=
  ∀ s : State, 16 ≤ s.inLen.toNat → s.inLen.toNat % 8 = 0 → fillAgrees s → recoveredN s + 10 ≤ s.inLen.toNat →
    s.outCap.toNat < s.inLen.toNat - recoveredN s - 10 →
    ∃ t, exec .msgDec s = .next t ∧ t.status = 0x13 ∧ t.resLen.toNat = s.inLen.toNat - recoveredN s - 10 ∧
      t.outBuf = s.outBuf

/-- 44_message_codec.md R173, R178: when the earlier checks pass and a byte of the last seven recovered is not zero,
MSG_DEC ends with `INTEGRITY_CHECK_FAILED` and 0; each byte of `OUT[0 .. Lout)` takes a free value (log 6), every other
byte of `OUT` reads as before. That MSG_DEC ends with a status where `IN_LEN`, `KEY` or `OUT_CAP` is unwritten since
reset, where the spec's model faults (R151, 10_state.md R38), is the model's choice (log 1, log 2). A byte of `IN` that
nothing has written reads as log 3's choice. -/
def Obligations.MsgDecChecksTrailer : Prop :=
  ∀ (s : State) (n : Nat), 16 ≤ s.inLen.toNat → s.inLen.toNat % 8 = 0 → fillAgrees s →
    recoveredN s + 10 ≤ s.inLen.toNat → n = s.inLen.toNat - recoveredN s - 10 → n ≤ s.outCap.toNat →
    (∃ j b, s.inLen.toNat - 7 ≤ j ∧ (recoveredLayout s)[j]? = some b ∧ b ≠ 0x00) →
    ∃ t, exec .msgDec s = .next t ∧ t.status = 0x14 ∧ t.resLen = 0 ∧
      (∀ a, a < n → Memory.read t.outBuf a = Config.freeByte (s.fresh + a)) ∧
      ∀ a, n ≤ a → Memory.read t.outBuf a = Memory.read s.outBuf a

/-- 44_message_codec.md R151, R172, R174, R178: MSG_DEC completes with `OK` whenever every check passes: `RES_LEN` is
Lout = C - N - 10, `OUT[0 .. Lout)` is `PL[N + 3 .. N + 3 + Lout)`, every other byte of `OUT` reads as before. The RNG
is untouched, `BLK` and the chaining registers are free (log 4, log 5), all else is unchanged. That MSG_DEC completes
where `KEY`, `IN_LEN` or `OUT_CAP` is unwritten since reset, where the spec's model faults (R151, 10_state.md R38), is
the model's choice (log 1, log 2). A byte of `IN` that nothing has written reads as log 3's choice. That the core holds
the command and the units' state in fields which every end of a command sets to none is deduced (log 19, log 26). -/
def Obligations.MsgDecRecoversPlaintext : Prop :=
  ∀ (s : State) (n : Nat), 16 ≤ s.inLen.toNat → s.inLen.toNat % 8 = 0 → fillAgrees s →
    recoveredN s + 10 ≤ s.inLen.toNat → n = s.inLen.toNat - recoveredN s - 10 → n ≤ s.outCap.toNat →
    (∀ j, s.inLen.toNat - 7 ≤ j → j < s.inLen.toNat → (recoveredLayout s)[j]? = some 0x00) →
    ∃ t, exec .msgDec s = .next t ∧ t.status = 0x10 ∧ t.resLen.toNat = n ∧
      (∀ a, a < n → (recoveredLayout s)[recoveredN s + 3 + a]? = some (Memory.read t.outBuf a)) ∧
      (∀ a, n ≤ a → Memory.read t.outBuf a = Memory.read s.outBuf a) ∧
      t.rngQueue = s.rngQueue ∧ t.rngDrawn = s.rngDrawn ∧
      t.key = s.key ∧ t.inLen = s.inLen ∧ t.outCap = s.outCap ∧ t.inBuf = s.inBuf ∧
      t.pending = s.pending ∧ t.observed = s.observed ∧ t.cfg = s.cfg ∧ t.running = none ∧
      t.written = { s.written with blk := .nothing }

/-- 44_message_codec.md R175: C = 16, N = 6, agreeing fill and a zero trailer end MSG_DEC with `OK` and 0 whatever
`OUT_CAP` is, and nothing is written to `OUT`; no plaintext of MSG_ENC gives such a layout. That MSG_DEC completes where
`IN_LEN`, `KEY` or `OUT_CAP` is unwritten since reset, where the spec's model faults (R151, 10_state.md R38), is the
model's choice (log 1, log 2). A byte of `IN` that nothing has written reads as log 3's choice. -/
def Obligations.MsgDecAcceptsZeroLength : Prop :=
  (∀ s : State, s.inLen.toNat = 16 → recoveredN s = 6 → fillAgrees s →
    (∀ j, 9 ≤ j → j < 16 → (recoveredLayout s)[j]? = some 0x00) →
    ∃ t, exec .msgDec s = .next t ∧ t.status = 0x10 ∧ t.resLen = 0 ∧ t.outBuf = s.outBuf) ∧
    ∀ L : Nat, 1 ≤ L → ¬ (totalLength L = 16 ∧ fillCountOf L = 6)

/-- 44_message_codec.md R180, which the spec marks as derived from R153, R161, R171 to R173 and R135: MSG_ENC of 1 to
L_MAX bytes with room for T, then MSG_DEC in any state with the same key whose `IN` holds that ciphertext, gives `OK`,
the length and the plaintext back. R135 rests on 43_chaining.md R132, R134 and 41_block_transform.md R101, R102. That
both complete where a register they read is unwritten since reset, where the spec's model faults (10_state.md R38), is
the model's choice (log 1, log 2). The draws are those of log 8. A byte of `IN` that nothing has written reads as log
3's choice. -/
def Obligations.MessageRoundTrip : Prop :=
  ∀ (s t u : State) (L : Nat), L = s.inLen.toNat → 1 ≤ L → L ≤ 0xFFFFFFEE → totalLength L ≤ s.outCap.toNat →
    exec .msgEnc s = .next t →
    u.key = s.key → u.inLen = t.resLen → L ≤ u.outCap.toNat →
    (∀ a, a < totalLength L → Memory.read u.inBuf a = Memory.read t.outBuf a) →
    t.status = 0x10 ∧ t.resLen.toNat = totalLength L ∧
      ∃ v, exec .msgDec u = .next v ∧ v.status = 0x10 ∧ v.resLen.toNat = L ∧
        ∀ a, a < L → Memory.read v.outBuf a = Memory.read s.inBuf a

/-- 44_message_codec.md R182, which the spec marks as derived from R151, R152 and 10_state.md R37: two MSG_DEC with
equal `KEY`, `IN_LEN`, `OUT_CAP` and `IN[0 .. C)` on cores of equal parameters report the same; two MSG_ENC with equal
`IN_LEN` and `OUT_CAP` too, and with equal `KEY`, `IN[0 .. L)` and draws those that succeed write the same bytes. That
both complete where a register they read is unwritten since reset, where the spec's model faults (10_state.md R38), is
the model's choice (log 1, log 2). The draws are those of log 8, the parameters those of log 15. -/
def Obligations.EqualInputsReportEqually : Prop :=
  ∀ (s s' t t' : State), s'.key = s.key → s'.inLen = s.inLen → s'.outCap = s.outCap → s'.cfg = s.cfg →
    (∀ a, a < s.inLen.toNat → Memory.read s'.inBuf a = Memory.read s.inBuf a) →
    (exec .msgDec s = .next t → exec .msgDec s' = .next t' → t'.status = t.status ∧ t'.resLen = t.resLen) ∧
      (exec .msgEnc s = .next t → exec .msgEnc s' = .next t' → (drawFour s').1 = (drawFour s).1 →
        t'.status = t.status ∧ t'.resLen = t.resLen ∧
          (t.status = 0x10 → ∀ a, a < t.resLen.toNat → Memory.read t'.outBuf a = Memory.read t.outBuf a))

/-- What the chaining registers and `BLK` hold before a message command makes no difference to it: the chaining
registers by 44_message_codec.md R152, `BLK` because it is no operand in R150 and R151. That the whole next state is
equal takes in what `BLK` and the chaining registers hold afterwards, which are the model's free values (log 4, log 5).
-/
def Obligations.MessagesIgnoreOldChain : Prop :=
  ∀ (i : Instr) (s : State) (c : Chain) (B : Block), i = .msgEnc ∨ i = .msgDec →
    exec i { s with chain := c, blk := B } = exec i s

/-- 10_state.md R43, 70_reset_and_hazards.md R245: after MSG_ENC or MSG_DEC, on every outcome, `PREV_OUT`, `PREV_MIX`,
`BLK_COUNT` and `BLK` are free values, four of them fresh, and `BLK` holds no value: a block command on it, and the
host's read of it, fault (10_state.md R38, 90_conflicts.md C10). That its content is a free value is the model's (log
4). That both commands answer a next state where `IN_LEN`, `OUT_CAP` or `KEY` is unwritten since reset, where the spec's
model faults (44_message_codec.md R150, R151, 10_state.md R38), is the model's choice (log 1, log 2). That the agent to
move is the first in the list of moves to come is the model's choice (log 9). -/
def Obligations.MessagesDiscardChain : Prop :=
  ∀ (i : Instr) (s : State), i = .msgEnc ∨ i = .msgDec →
    ∃ t n, exec i s = .next t ∧ s.fresh ≤ n ∧ t.fresh = n + 4 ∧
      t.chain.prevOut = Config.freeBlock n ∧ t.chain.prevMix = Config.freeBlock (n + 1) ∧
      t.chain.blkCount = Config.freeLen (n + 2) ∧ t.blk = Config.freeBlock (n + 3) ∧
      t.written.blk = .nothing ∧ Reg.blk ∈ unwrittenReads .teaEnc t ∧
      (∀ j : Instr, j = .teaEnc ∨ j = .teaDec ∨ j = .chainEnc ∨ j = .chainDec →
        exec j t = .fault (.unwrittenRegister .blk)) ∧
      ∀ after : List Move, step { t with pending := .host (.readReg 0x03) :: after } = .fault (.unwrittenRegister .blk)

/-! ### Buffers -/

/-- 20_memory.md R51, and R68, which the spec marks as derived from 44_message_codec.md R157, R166 and R170: no command
writes `OUT` at an offset of `OUT_CAP` or more, and what `IN` holds at an offset of `IN_LEN` or more makes no difference
to any command. That a command completes where a register it reads is unwritten since reset, where the spec's model
faults (10_state.md R38), is the model's choice (log 1, log 2). That the buffers have bytes at `OUT_CAP` and beyond, and
at `IN_LEN` and beyond, is the model's choice (log 16). -/
def Obligations.CommandsStayInBuffers : Prop :=
  ∀ (i : Instr) (s t : State), exec i s = .next t →
    (∀ a, s.outCap.toNat ≤ a → Memory.read t.outBuf a = Memory.read s.outBuf a) ∧
      ∀ m : Memory, (∀ a, a < s.inLen.toNat → Memory.read m a = Memory.read s.inBuf a) →
        exec i { s with inBuf := m } = .next { t with inBuf := m }

/-- 20_memory.md R54, which the spec marks as derived from the commands' own rules: a command other than MSG_ENC and
MSG_DEC, and an illegal command, neither reads nor writes `IN`, `OUT` or the RNG port; a block command on a `BLK` that a
message command left without a value faults. That a block command completes where `KEY` or `BLK` is unwritten since
reset, where the spec's model faults (41_block_transform.md R104, 10_state.md R38), is the model's choice (log 1, log
2). -/
def Obligations.OnlyMessagesAccessBuffers : Prop :=
  (∀ (s : State) (m o : Memory) (q : List Byte) (n : Nat),
    (illegalCommand s).inBuf = s.inBuf ∧ (illegalCommand s).outBuf = s.outBuf ∧
      (illegalCommand s).rngQueue = s.rngQueue ∧ (illegalCommand s).rngDrawn = s.rngDrawn ∧
      illegalCommand { s with inBuf := m, outBuf := o, rngQueue := q, rngDrawn := n } =
        { illegalCommand s with inBuf := m, outBuf := o, rngQueue := q, rngDrawn := n }) ∧
  ∀ (i : Instr) (s : State) (m o : Memory) (q : List Byte) (n : Nat), i ≠ .msgEnc → i ≠ .msgDec →
    (s.written.blk ≠ .nothing ∨ i = .chainInit →
      ∃ t, exec i s = .next t ∧ t.inBuf = s.inBuf ∧ t.outBuf = s.outBuf ∧ t.rngQueue = s.rngQueue ∧
        t.rngDrawn = s.rngDrawn ∧
        exec i { s with inBuf := m, outBuf := o, rngQueue := q, rngDrawn := n } =
          .next { t with inBuf := m, outBuf := o, rngQueue := q, rngDrawn := n }) ∧
      (s.written.blk = .nothing → i ≠ .chainInit →
        exec i { s with inBuf := m, outBuf := o, rngQueue := q, rngDrawn := n } = .fault (.unwrittenRegister .blk))

/-- 20_memory.md R50, R55: an idle host's write of bytes of `IN` or `OUT` at offsets below 2^32 puts each byte at its
offset and changes nothing else; its read gives the bytes there and changes nothing else. A window past 2^32 stops with
a fault. That an access at an offset below 2^32 completes, also at or beyond `IN_LEN` or `OUT_CAP`, where R50 gives the
buffers only `IN_LEN` and `OUT_CAP` bytes, and that a window past 2^32 stops with the fault noSuchOffset, are the
model's choices (log 16). Bytes that nothing has written read as log 3's choice; the record of a read is log 12's. That
the agent to move is the first in the list of moves to come is the model's choice (log 9). -/
def Obligations.HostMovesBufferBytes : Prop :=
  ∀ (s : State) (off n : Nat) (bs : List Byte) (after : List Move), busyBit s.status = false →
    (s.pending = .host (.writeIn off bs) :: after → off + bs.length ≤ 2 ^ 32 →
      ∃ t, step s = .next t ∧ t = { s with inBuf := t.inBuf, pending := after } ∧
        (∀ k b, bs[k]? = some b → Memory.read t.inBuf (off + k) = b) ∧
        ∀ a, a < off ∨ off + bs.length ≤ a → Memory.read t.inBuf a = Memory.read s.inBuf a) ∧
      (s.pending = .host (.writeOut off bs) :: after → off + bs.length ≤ 2 ^ 32 →
        ∃ t, step s = .next t ∧ t = { s with outBuf := t.outBuf, pending := after } ∧
          (∀ k b, bs[k]? = some b → Memory.read t.outBuf (off + k) = b) ∧
          ∀ a, a < off ∨ off + bs.length ≤ a → Memory.read t.outBuf a = Memory.read s.outBuf a) ∧
      (s.pending = .host (.readIn off n) :: after → off + n ≤ 2 ^ 32 →
        step s = .next { s with
          pending := after
          observed := .bytes ((List.range n).map fun k => Memory.read s.inBuf (off + k)) :: s.observed }) ∧
      (s.pending = .host (.readOut off n) :: after → off + n ≤ 2 ^ 32 →
        step s = .next { s with
          pending := after
          observed := .bytes ((List.range n).map fun k => Memory.read s.outBuf (off + k)) :: s.observed }) ∧
      (s.pending = .host (.readOut off n) :: after ∨ s.pending = .host (.readIn off n) :: after → 2 ^ 32 < off + n →
        step s = .fault .noSuchOffset) ∧
      (s.pending = .host (.writeOut off bs) :: after ∨ s.pending = .host (.writeIn off bs) :: after →
        2 ^ 32 < off + bs.length → step s = .fault .noSuchOffset)

/-! ### Host accesses and the command protocol -/

/-- 70_reset_and_hazards.md R237, R238: while `BUSY = 1` every host access but a read of `STATUS` is refused, a second
`CMD` write too; a read of `STATUS` answers it and changes nothing. That an access which is wrong in another way as well
is refused under the name accessWhileBusy is the model's choice (log 23). The record of a read is log 12's choice. That
the agent to move is the first in the list of moves to come is the model's choice (log 9). -/
def Obligations.BusyCoreRefusesAccess : Prop :=
  ∀ (s : State) (a : HostAction) (after : List Move), busyBit s.status = true → s.pending = .host a :: after →
    (a ≠ .readReg 0x01 → step s = .refused .accessWhileBusy) ∧
      (a = .readReg 0x01 →
        step s = .next { s with pending := after, observed := .reg (.byte s.status) :: s.observed })

/-- 10_state.md R22, 20_memory.md R53: the accesses without a meaning are refused by name while idle: a reserved number,
a read of `CMD`, a write to a read-only register, a write that is not one whole register, and overlapping buffers. That
overlapping buffers, which R53 refuses, are an action the host can try is deduced (log 17), and so is that a write which
is not one whole register is refused (log 18); the refusals' names are the model's. That the agent to move is the first
in the list of moves to come is the model's choice (log 9). -/
def Obligations.ForbiddenAccessesRefused : Prop :=
  ∀ (s : State) (after : List Move) (no : BitVec 8) (v : RegValue), busyBit s.status = false →
    (0x0A ≤ no.toNat →
      (s.pending = .host (.readReg no) :: after → step s = .refused (.reservedRegister no)) ∧
        (s.pending = .host (.writeReg no v) :: after → step s = .refused (.reservedRegister no))) ∧
      (s.pending = .host (.readReg 0x00) :: after → step s = .refused .writeOnlyRegister) ∧
      (∀ r : Reg, no = numberOfReg r → r.writable = false → s.pending = .host (.writeReg no v) :: after →
        step s = .refused (.readOnlyRegister r)) ∧
      (∀ r : Reg, no = numberOfReg r → r.writable = true → r.takes v = false →
        s.pending = .host (.writeReg no v) :: after → step s = .refused (.partialAccess r)) ∧
      (s.pending = .host .shareBuffers :: after → step s = .refused .overlappingBuffers)

/-- 10_state.md R22, R38, R41: an idle host's write of `KEY`, `BLK`, `IN_LEN` or `OUT_CAP` replaces that register, which
then holds a value, and changes nothing else. Whether a register has been written is kept in a field of the model (log
2). That the agent to move is the first in the list of moves to come is the model's choice (log 9). -/
def Obligations.HostWritesOneRegister : Prop :=
  ∀ (s : State) (after : List Move), busyBit s.status = false →
    (∀ k, s.pending = .host (.writeReg 0x02 (.key k)) :: after →
      step s = .next { s with key := k, written := { s.written with key := true }, pending := after }) ∧
      (∀ b, s.pending = .host (.writeReg 0x03 (.block b)) :: after →
        step s = .next { s with blk := b, written := { s.written with blk := .value }, pending := after }) ∧
      (∀ n, s.pending = .host (.writeReg 0x07 (.len n)) :: after →
        step s = .next { s with inLen := n, written := { s.written with inLen := true }, pending := after }) ∧
      ∀ n, s.pending = .host (.writeReg 0x08 (.len n)) :: after →
        step s = .next { s with outCap := n, written := { s.written with outCap := true }, pending := after }

/-- 10_state.md R21, R22, R24: an idle host's read of each readable register answers its value and changes nothing else;
a read of `BLK` while it holds no value faults (10_state.md R38, R43). That a read of a register unwritten since reset
answers a value is the model's choice (log 1, log 2). The record of a read is log 12's choice. That the agent to move is
the first in the list of moves to come is the model's choice (log 9). -/
def Obligations.HostReadsAnswerRegisters : Prop :=
  ∀ (s : State) (after : List Move) (no : BitVec 8) (v : RegValue), busyBit s.status = false →
    (no, v) ∈ [(0x01#8, RegValue.byte s.status), (0x02#8, .key s.key), (0x03#8, .block s.blk),
      (0x04#8, .block s.chain.prevOut), (0x05#8, .block s.chain.prevMix), (0x06#8, .len s.chain.blkCount),
      (0x07#8, .len s.inLen), (0x08#8, .len s.outCap), (0x09#8, .len s.resLen)] →
    s.pending = .host (.readReg no) :: after →
    (no ≠ 0x03 ∨ s.written.blk ≠ .nothing → step s = .next { s with pending := after, observed := .reg v :: s.observed }) ∧
      (no = 0x03 → s.written.blk = .nothing → step s = .fault (.unwrittenRegister .blk))

/-- 10_state.md R25, R41, R42, 70_reset_and_hazards.md R230, and R40, which the spec marks as derived from R42 and
70_reset_and_hazards.md R237: no step but the host's own write, while idle, or a reset changes `KEY`, `IN_LEN` or
`OUT_CAP`, and no step at all changes the parameters. That a step never changes the parameters is the model's choice:
00_scope.md R6 makes `OVERRUN_STATUS` a parameter, and the model holds it in a field that no step writes (log 15); reset
keeps it too (log 24). That the agent to move is the first in the list of moves to come is the model's choice (log 9).
-/
def Obligations.OnlyHostChangesInputs : Prop :=
  ∀ s t : State, step s = .next t →
    t.cfg = s.cfg ∧
      (t.key ≠ s.key → (∃ after, s.pending = .reset :: after) ∨
        (busyBit s.status = false ∧ ∃ after, s.pending = .host (.writeReg 0x02 (.key t.key)) :: after)) ∧
      (t.inLen ≠ s.inLen → (∃ after, s.pending = .reset :: after) ∨
        (busyBit s.status = false ∧ ∃ after, s.pending = .host (.writeReg 0x07 (.len t.inLen)) :: after)) ∧
      (t.outCap ≠ s.outCap → (∃ after, s.pending = .reset :: after) ∨
        (busyBit s.status = false ∧ ∃ after, s.pending = .host (.writeReg 0x08 (.len t.outCap)) :: after))

/-- 10_state.md R41, 60_exceptions.md R220, 70_reset_and_hazards.md R231: with no command running a step with no move
left is the same state, and a core's move only uses up the move. That a core's move while no command runs only uses up
the move is the model's choice (log 27), and so is that the core has the step when no move is left (log 11). That the
agent to move is the first in the list of moves to come is the model's choice (log 9). -/
def Obligations.IdleMachineKeepsState : Prop :=
  ∀ s : State, s.running = none → (s.pending = [] → step s = .next s) ∧
    ∀ after, s.pending = .core :: after → step s = .next { s with pending := after }

/-- 70_reset_and_hazards.md R235, R236, 60_exceptions.md R213: whatever command word an idle host writes, reserved ones
too, when it then waits the command ends and the wait is over after three steps, with the moves behind the wait to come.
A block command needs a `BLK` that no message command left without a value (10_state.md R38, R43). That the core gets
its step during the wait is the model's form of weak fairness, its choice (log 11). So is that the record of what the
host observed stays as it was: R213 and 30_encoding.md R76 have the host read `STATUS` during a wait, and the model does
not record those reads (log 11, log 12). That a command also ends on registers unwritten since reset is the model's
choice (log 1, log 2). That the agent to move is the first in the list of moves to come is the model's choice (log 9).
-/
def Obligations.WaitEndsEveryCommand : Prop :=
  ∀ (s : State) (c : BitVec 8) (after : List Move), busyBit s.status = false →
    (s.written.blk = .nothing → c ∉ [0x01#8, 0x02#8, 0x11#8, 0x12#8]) →
    s.pending = .host (.writeReg 0x00 (.byte c)) :: .wait :: after →
    ∃ t, Host.Core.run core 3 s = .next t ∧ t.pending = after ∧ t.running = none ∧
      busyBit t.status = false ∧ doneBit t.status = true ∧ t.observed = s.observed

/-! ### Reset and the invariant -/

/-- 10_state.md R39: after reset `STATUS` is 0, the chaining state zero, `RES_LEN` 0, `KEY`, `BLK`, `IN_LEN` and
`OUT_CAP` unwritten, and nothing runs or is held. What the four unwritten registers contain is the model's choice (log
1), not stated here. That no command runs and nothing is held is said in the model's fields (log 19, log 26), that the
four are unwritten in its field of log 2. -/
def Obligations.ResetRegisterValues : Prop :=
  State.reset.status = 0x00 ∧ State.reset.chain = ⟨Block.zero, Block.zero, 0⟩ ∧ State.reset.resLen = 0 ∧
    State.reset.written = ⟨false, .resetValue, false, false⟩ ∧ State.reset.running = none ∧ State.reset.bt = none ∧
    State.reset.mc = none

/-- 70_reset_and_hazards.md R230, R232: reset, in any state, puts every register at its reset value and keeps `IN`; with
no command running, or one that writes no `OUT`, it keeps `OUT` too; bytes of `OUT` at `OUT_CAP` or beyond, and those
the abandoned command could not have written, are kept. Reset takes no draw; only an abandoned MSG_ENC whose checks pass
may have taken some of its four by then (log 7), and every settled byte not drawn is kept. What the abandoned command
could have done where a register it reads is unwritten since reset rests on log 1 and log 2. That reset keeps the moves
to come, the observations and the parameters is the model's (log 9, log 12, log 15); the buffers have bytes at `OUT_CAP`
and beyond as log 16 chooses. -/
def Obligations.ResetAbandonsCommand : Prop :=
  ∀ (s : State) (after : List Move), s.pending = .reset :: after →
    ∃ t k, step s = .next t ∧
      t = { State.reset with
        inBuf := s.inBuf, outBuf := t.outBuf, rngQueue := s.rngQueue.drop k, rngDrawn := s.rngDrawn + k, fresh := t.fresh
        pending := after, observed := s.observed, cfg := s.cfg } ∧
      k ≤ 4 ∧ (k ≠ 0 → s.running = some 0x20 ∧ outReach .msgEnc s ≠ 0) ∧
      (∀ a, s.outCap.toNat ≤ a → Memory.read t.outBuf a = Memory.read s.outBuf a) ∧
      ((∀ c i, s.running = some c → decodeWord c = .ok i → i ≠ .msgEnc ∧ i ≠ .msgDec) →
        t.outBuf = s.outBuf ∧ t.fresh = s.fresh) ∧
      ∀ c i, s.running = some c → decodeWord c = .ok i →
        (∀ a, a < outReach i s → Memory.read t.outBuf a = Config.freeByte (s.fresh + a)) ∧
          ∀ a, outReach i s ≤ a → Memory.read t.outBuf a = Memory.read s.outBuf a

/-- The state after reset meets the invariant. That nothing is held between steps is deduced (log 19), and the canonical
form of the buffers is the model's choice (log 3). -/
def Obligations.ResetStateMeetsInvariant : Prop := Invariant State.reset

/-- 10_state.md R24, R37, R235 and 93_implementation_defined.md U12, U13: every step keeps the invariant, from every
state that meets it: `STATUS` stays legal (reserved bits 0, `ERR` one of six, `BUSY` exactly while a command runs, then
`DONE` and `ERR` 0), nothing is held between steps, and both buffers stay in canonical form. That nothing is held
between steps, and that a command is held while the core is busy, is deduced (log 19, log 26); the canonical form of the
buffers is the model's choice (log 3). -/
def Obligations.StepKeepsInvariant : Prop :=
  ∀ s t : State, Invariant s → step s = .next t → Invariant t

/-- 10_state.md R38, R42, 95_test_vectors.md V35: which unwritten registers each command reaches from reset, and that a
command that reaches none does not depend on them: with other contents in the unwritten registers among `KEY`, `BLK`,
`IN_LEN` and `OUT_CAP` it completes in the same state but for those contents (a message command leaves its own in
`BLK`), and a step that reads none does too. Where the spec's model would fault on such a read, this one goes on with
the reset value (log 1, log 2). That the agent to move is the first in the list of moves to come is the model's choice
(log 9). -/
def Obligations.UnwrittenContentsMakeNoDifference : Prop :=
  (unwrittenReads .teaEnc State.reset = [.blk, .key] ∧ unwrittenReads .teaDec State.reset = [.blk, .key] ∧
      unwrittenReads .chainEnc State.reset = [.blk, .key] ∧ unwrittenReads .chainDec State.reset = [.blk, .key] ∧
      unwrittenReads .chainInit State.reset = [] ∧ unwrittenReads .msgEnc State.reset = [.inLen] ∧
      unwrittenReads .msgDec State.reset = [.inLen]) ∧
    (∀ (i : Instr) (s : State), s.written = ⟨true, .value, true, true⟩ → unwrittenReads i s = []) ∧
    (∀ (i : Instr) (s : State) (k : Key) (b : Block) (n c : Len), unwrittenReads i s = [] →
      ∃ t, exec i s = .next t ∧
        (i ≠ .msgEnc → i ≠ .msgDec → exec i (refill k b n c s) = .next (refill k b n c t)) ∧
        (i = .msgEnc ∨ i = .msgDec → exec i (refill k b n c s) = .next { refill k b n c t with blk := t.blk })) ∧
    ∀ (s t : State) (k : Key) (b : Block) (n c : Len), readsWritten s = true → step s = .next t →
      ∃ u, step (refill k b n c s) = .next u ∧
        { u with key := t.key, blk := t.blk, inLen := t.inLen, outCap := t.outCap } = t

/-- 70_reset_and_hazards.md R232, R236, R246: a running command ends, by its core step or by a reset: with a command
running and a host that does nothing but read `STATUS` or wait, after at most as many steps as there are moves to come
and one more no command runs. A reset may be among these moves and abandons the command without a core step; the
statement does not say which of the two ended it. A block command needs a `BLK` that no message command left without a
value. That the core moves during a wait and when no move is left is the model's form of weak fairness, its choice (log
11); that a command ends on registers unwritten since reset is the model's choice (log 1, log 2). That the agent to move
is the first in the list of moves to come is the model's choice (log 9). -/
def Obligations.RunningCommandEnds : Prop :=
  ∀ s : State, busyBit s.status = true → s.running ≠ none →
    (∀ a, .host a ∈ s.pending → a = .readReg 0x01) →
    (s.written.blk = .nothing → ∀ c ∈ [0x01#8, 0x02#8, 0x11#8, 0x12#8], s.running ≠ some c) →
    ∃ n t, n ≤ s.pending.length + 1 ∧ Host.Core.run core n s = .next t ∧ t.running = none
end

