-- ==== Sys2Proof/Laws/BlockTransform.lean ====
section
/-! SUPPORT. Laws of the rounds: one decrypt round undoes one encrypt round, the pipeline is the rounds iterated, and the
accumulator's schedule. -/

namespace Sys2Proof.Machine

open Sys2Proof

/-- One decrypt round undoes one encrypt round. -/
theorem decRound_encRound (k : KeyWords) (p : Lanes) : decRound k (encRound k p) = p := by
  obtain ⟨y, z, sum⟩ := p
  simp [decRound, encRound]

/-- One encrypt round undoes one decrypt round. -/
theorem encRound_decRound (k : KeyWords) (p : Lanes) : encRound k (decRound k p) = p := by
  obtain ⟨y, z, sum⟩ := p
  simp [decRound, encRound]

/-- The pipeline in the encrypt direction is the encrypt round iterated. -/
theorem btRound_iterate_encrypt (k : KeyWords) (n r : Nat) (l : Lanes) :
    (btRound k)^[n] ⟨l, r, .encrypt⟩ = ⟨(encRound k)^[n] l, r + n, .encrypt⟩ := by
  induction n generalizing l r with
  | zero => rfl
  | succ n ih => simp only [Function.iterate_succ_apply, btRound, ih]; congr 1; omega

/-- The pipeline in the decrypt direction is the decrypt round iterated. -/
theorem btRound_iterate_decrypt (k : KeyWords) (n r : Nat) (l : Lanes) :
    (btRound k)^[n] ⟨l, r, .decrypt⟩ = ⟨(decRound k)^[n] l, r + n, .decrypt⟩ := by
  induction n generalizing l r with
  | zero => rfl
  | succ n ih => simp only [Function.iterate_succ_apply, btRound, ih]; congr 1; omega

/-- `encryptBlock` as the encrypt round iterated 16 times from the accumulator 0. -/
theorem encryptBlock_eq (B : Block) (K : Key) :
    encryptBlock B K =
      wordsBlock ((encRound (keyWords K))^[16] ⟨(blockWords B).1, (blockWords B).2, 0⟩).y
        ((encRound (keyWords K))^[16] ⟨(blockWords B).1, (blockWords B).2, 0⟩).z := by
  simp only [encryptBlock, btStart, rounds, btRound_iterate_encrypt, btBlock]

/-- `decryptBlock` as the decrypt round iterated 16 times from the accumulator 16 × DELTA. -/
theorem decryptBlock_eq (B : Block) (K : Key) :
    decryptBlock B K =
      wordsBlock ((decRound (keyWords K))^[16] ⟨(blockWords B).1, (blockWords B).2, sumDec0⟩).y
        ((decRound (keyWords K))^[16] ⟨(blockWords B).1, (blockWords B).2, sumDec0⟩).z := by
  simp only [decryptBlock, btStart, rounds, btRound_iterate_decrypt, btBlock]

/-- After n encrypt rounds the accumulator has grown by n × DELTA (41_block_transform.md R101). -/
theorem encRound_iterate_sum (k : KeyWords) (n : Nat) (l : Lanes) :
    ((encRound k)^[n] l).sum = l.sum + BitVec.ofNat 32 (n * 0x9E3779B9) := by
  induction n generalizing l with
  | zero => simp
  | succ n ih =>
    rw [Function.iterate_succ_apply, ih, Nat.succ_mul, Nat.add_comm (n * _), BitVec.ofNat_add]
    simp [encRound, delta, BitVec.add_assoc]

/-- After n decrypt rounds the accumulator has shrunk by n × DELTA (41_block_transform.md R102). -/
theorem decRound_iterate_sum (k : KeyWords) (n : Nat) (l : Lanes) :
    ((decRound k)^[n] l).sum = l.sum - BitVec.ofNat 32 (n * 0x9E3779B9) := by
  induction n generalizing l with
  | zero => simp
  | succ n ih =>
    rw [Function.iterate_succ_apply, ih, Nat.succ_mul, Nat.add_comm (n * _), BitVec.ofNat_add]
    simp only [decRound, delta]
    exact BitVec.sub_sub ..

end Sys2Proof.Machine
end

