-- ==== Sys2Proof/Laws/Bytes.lean ====
section
/-! SUPPORT. Laws of byte sequences and blocks: cutting into blocks and joining them, and the XOR of blocks. -/

namespace Sys2Proof.Machine

open Sys2Proof

@[simp] theorem length_blockToBytes (B : Block) : (blockToBytes B).length = 8 := rfl

/-- A key has KEY_BYTES bytes (00_scope.md R7, 10_state.md R25). -/
@[simp] theorem length_keyToBytes (K : Key) : (keyToBytes K).length = keyBytes := rfl

@[simp] theorem length_blocksToBytes (Bs : List Block) : (blocksToBytes Bs).length = 8 * Bs.length := by
  induction Bs with
  | nil => rfl
  | cons B Bs ih => simp [blocksToBytes] at *; omega

@[simp] theorem blocksToBytes_nil : blocksToBytes [] = [] := rfl

@[simp] theorem blocksToBytes_cons (B : Block) (Bs : List Block) :
    blocksToBytes (B :: Bs) = blockToBytes B ++ blocksToBytes Bs := rfl

@[simp] theorem bytesToBlocks_append_block (B : Block) (bs : List Byte) :
    bytesToBlocks (blockToBytes B ++ bs) = B :: bytesToBlocks bs := rfl

/-- Cutting the bytes of blocks gives the blocks back. -/
@[simp] theorem bytesToBlocks_blocksToBytes (Bs : List Block) : bytesToBlocks (blocksToBytes Bs) = Bs := by
  induction Bs with
  | nil => rfl
  | cons B Bs ih => simp [ih]

/-- Joining the blocks of a whole number of blocks gives the bytes back. -/
theorem blocksToBytes_bytesToBlocks (bs : List Byte) (h : bs.length % 8 = 0) :
    blocksToBytes (bytesToBlocks bs) = bs := by
  induction bs using bytesToBlocks.induct with
  | case1 b0 b1 b2 b3 b4 b5 b6 b7 rest ih =>
    simp only [bytesToBlocks, blocksToBytes_cons, blockToBytes]
    rw [ih (by simp only [List.length_cons] at h; omega)]
    rfl
  | case2 bs hn =>
    match bs, hn, h with
    | [], _, _ => rfl
    | [_], _, h | [_, _], _, h | [_, _, _], _, h | [_, _, _, _], _, h | [_, _, _, _, _], _, h
    | [_, _, _, _, _, _], _, h | [_, _, _, _, _, _, _], _, h => simp at h
    | b0 :: b1 :: b2 :: b3 :: b4 :: b5 :: b6 :: b7 :: rest, hn, _ => exact absurd rfl (hn b0 b1 b2 b3 b4 b5 b6 b7 rest)

/-- A sequence of bytes has one block for every 8 bytes. -/
theorem length_bytesToBlocks (bs : List Byte) : (bytesToBlocks bs).length = bs.length / 8 := by
  induction bs using bytesToBlocks.induct with
  | case1 b0 b1 b2 b3 b4 b5 b6 b7 rest ih => simp only [bytesToBlocks, List.length_cons, ih]; omega
  | case2 bs hn =>
    match bs, hn with
    | [], _ | [_], _ | [_, _], _ | [_, _, _], _ | [_, _, _, _], _ | [_, _, _, _, _], _
    | [_, _, _, _, _, _], _ | [_, _, _, _, _, _, _], _ => simp [bytesToBlocks]
    | b0 :: b1 :: b2 :: b3 :: b4 :: b5 :: b6 :: b7 :: rest, hn => exact absurd rfl (hn b0 b1 b2 b3 b4 b5 b6 b7 rest)

/-- The blocks of a sequence of bytes are the blocks at its multiples of 8. -/
theorem bytesToBlocks_eq_map (bs : List Byte) :
    bytesToBlocks bs = (List.range (bs.length / 8)).map fun k => blockAt (fun j => bs.getD j 0) (8 * k) := by
  induction bs using bytesToBlocks.induct with
  | case1 b0 b1 b2 b3 b4 b5 b6 b7 rest ih =>
    have e : (b0 :: b1 :: b2 :: b3 :: b4 :: b5 :: b6 :: b7 :: rest).length / 8 = rest.length / 8 + 1 := by
      simp only [List.length_cons]; omega
    rw [e, List.range_succ_eq_map, List.map_cons, List.map_map, bytesToBlocks, ih]
    refine congrArg _ (List.map_congr_left fun k _ => ?_)
    simp only [Function.comp, blockAt, Nat.mul_succ]
    rfl
  | case2 bs hn =>
    match bs, hn with
    | [], _ | [_], _ | [_, _], _ | [_, _, _], _ | [_, _, _, _], _ | [_, _, _, _, _], _
    | [_, _, _, _, _, _], _ | [_, _, _, _, _, _, _], _ => simp [bytesToBlocks]
    | b0 :: b1 :: b2 :: b3 :: b4 :: b5 :: b6 :: b7 :: rest, hn => exact absurd rfl (hn b0 b1 b2 b3 b4 b5 b6 b7 rest)

@[simp] theorem xor8_zero (A : Block) : xor8 A Block.zero = A := by
  simp [xor8, Block.zero]

/-- XOR twice with the same block gives the block back. -/
@[simp] theorem xor8_xor8 (A B : Block) : xor8 (xor8 A B) B = A := by
  simp [xor8]

end Sys2Proof.Machine
end

