-- ==== Sys2Proof/Laws/Chaining.lean ====
section
/-! SUPPORT. Laws of the chaining steps over sequences of blocks. -/

namespace Sys2Proof.Machine

open Sys2Proof

@[simp] theorem chainEncAll_nil (K : Key) (c : Chain) : chainEncAll K c [] = ([], c) := rfl

@[simp] theorem chainDecAll_nil (K : Key) (c : Chain) : chainDecAll K c [] = ([], c) := rfl

@[simp] theorem chainEncAll_cons (K : Key) (c : Chain) (P : Block) (Ps : List Block) :
    chainEncAll K c (P :: Ps) =
      ((chainEncStep K c P).1 :: (chainEncAll K (chainEncStep K c P).2 Ps).1,
        (chainEncAll K (chainEncStep K c P).2 Ps).2) := rfl

@[simp] theorem chainDecAll_cons (K : Key) (c : Chain) (O : Block) (Os : List Block) :
    chainDecAll K c (O :: Os) =
      ((chainDecStep K c O).1 :: (chainDecAll K (chainDecStep K c O).2 Os).1,
        (chainDecAll K (chainDecStep K c O).2 Os).2) := rfl

@[simp] theorem length_chainEncAll (K : Key) (c : Chain) (Ps : List Block) : (chainEncAll K c Ps).1.length = Ps.length := by
  induction Ps generalizing c with
  | nil => rfl
  | cons P Ps ih => simp [ih]

@[simp] theorem length_chainDecAll (K : Key) (c : Chain) (Os : List Block) : (chainDecAll K c Os).1.length = Os.length := by
  induction Os generalizing c with
  | nil => rfl
  | cons O Os ih => simp [ih]

end Sys2Proof.Machine
end

