-- ==== Sys2Proof/Laws/Decode.lean ====
section
/-! SUPPORT. Laws of the register numbers and of the command words. -/

namespace Sys2Proof

@[simp] theorem regOfNumber_numberOfReg (r : Reg) : regOfNumber (numberOfReg r) = some r := by
  cases r <;> rfl

/-- A number that names a register is that register's number. -/
theorem regOfNumber_some {no : BitVec 8} {r : Reg} (h : regOfNumber no = some r) : no = numberOfReg r := by
  revert h; revert r; revert no; decide +kernel

/-- The register numbers are 0 to 9 (10_state.md R21, R22). -/
theorem regOfNumber_eq_none_iff (no : BitVec 8) : regOfNumber no = none ↔ regNumberDefined no = false := by
  revert no; decide +kernel

/-- The decoder accepts exactly the words the check on raw input accepts (30_encoding.md R72). -/
theorem decodeWord_ok_iff (w : BitVec 8) : (∃ i, decodeWord w = .ok i) ↔ commandDefined w = true := by
  have h : ∀ w : BitVec 8, (decodeWord w).isOk = commandDefined w := by decide +kernel
  rw [← h]
  cases decodeWord w <;> simp [Except.isOk, Except.toBool]

end Sys2Proof
end

