-- ==== Sys2Proof/Laws/Memory.lean ====
section
/-! SUPPORT. Laws of the buffers: a read after a write, bytes a write leaves alone, and the canonical form. -/

namespace Sys2Proof.Machine

open Sys2Proof

theorem Memory.read_of_forall_ne (m : Memory) (k : Nat) (h : ∀ c ∈ m, c.1 ≠ k) : Memory.read m k = unlistedByte := by
  induction m with
  | nil => rfl
  | cons c rest ih =>
    obtain ⟨a, b⟩ := c
    have ha : k ≠ a := fun e => h (a, b) (by simp) e.symm
    simp only [Memory.read, ha, if_false]
    exact ih fun c hc => h c (by simp [hc])

theorem Memory.erase_ne (m : Memory) (off : Nat) : ∀ c ∈ Memory.erase m off, c.1 ≠ off := by
  intro c hc
  simpa using (List.mem_filter.mp hc).2

theorem Memory.read_erase (m : Memory) (off k : Nat) :
    Memory.read (Memory.erase m off) k = if k = off then unlistedByte else Memory.read m k := by
  split
  · next h => subst h; exact Memory.read_of_forall_ne _ _ (Memory.erase_ne m k)
  · next h =>
    induction m with
    | nil => rfl
    | cons c rest ih =>
      obtain ⟨a, b⟩ := c
      simp only [Memory.erase, List.filter_cons] at *
      by_cases hao : a = off
      · subst hao; simp [Memory.read, h, ih]
      · simp [hao, Memory.read, ih]

theorem Memory.read_insert (m : Memory) (off : Nat) (v : Byte) (k : Nat) (h : ∀ c ∈ m, c.1 ≠ off) :
    Memory.read (Memory.insert m off v) k = if k = off then v else Memory.read m k := by
  induction m with
  | nil => simp [Memory.insert, Memory.read]
  | cons c rest ih =>
    obtain ⟨a, b⟩ := c
    have ha : a ≠ off := h (a, b) (by simp)
    have ih' := ih fun c hc => h c (by simp [hc])
    simp only [Memory.insert]
    split
    · simp [Memory.read]
    · simp only [Memory.read, ih']
      by_cases hka : k = a
      · subst hka; simp [ha]
      · simp [hka]

/-- A read after a write of one byte gives the value written, and every other offset reads as before. -/
theorem Memory.read_write (m : Memory) (off : Nat) (v : Byte) (k : Nat) :
    Memory.read (Memory.write m off v) k = if k = off then v else Memory.read m k := by
  unfold Memory.write
  split
  · next hv => rw [Memory.read_erase, hv]
  · rw [Memory.read_insert _ _ _ _ (Memory.erase_ne m off), Memory.read_erase]
    split <;> rfl

/-- A read after a write of bytes: inside the window the byte written, outside it the byte before. -/
theorem Memory.read_writeBytes (bs : List Byte) (m : Memory) (off k : Nat) :
    Memory.read (Memory.writeBytes m off bs) k =
      if off ≤ k ∧ k < off + bs.length then bs.getD (k - off) 0 else Memory.read m k := by
  induction bs generalizing m off with
  | nil => simp only [Memory.writeBytes, List.length_nil]; rw [if_neg (by omega)]
  | cons b bs ih =>
    simp only [Memory.writeBytes, ih, Memory.read_write, List.length_cons]
    by_cases h1 : k = off
    · subst h1; rw [if_neg (by omega), if_pos rfl, if_pos (by omega)]; simp
    · by_cases h2 : off + 1 ≤ k ∧ k < off + 1 + bs.length
      · rw [if_pos h2, if_pos (by omega)]
        obtain ⟨j, rfl⟩ : ∃ j, k = off + 1 + j := ⟨k - (off + 1), by omega⟩
        have e1 : off + 1 + j - (off + 1) = j := by omega
        have e2 : off + 1 + j - off = j + 1 := by omega
        rw [e1, e2]; simp
      · rw [if_neg h2, if_neg h1, if_neg (by omega)]

theorem Memory.read_writeBytes_outside (bs : List Byte) (m : Memory) (off k : Nat) (h : k < off ∨ off + bs.length ≤ k) :
    Memory.read (Memory.writeBytes m off bs) k = Memory.read m k := by
  rw [Memory.read_writeBytes, if_neg (by omega)]

@[simp] theorem Memory.length_readBytes (m : Memory) (off n : Nat) : (Memory.readBytes m off n).length = n := by
  simp [Memory.readBytes]

theorem Memory.getElem_readBytes (m : Memory) (off n k : Nat) (h : k < (Memory.readBytes m off n).length) :
    (Memory.readBytes m off n)[k] = Memory.read m (off + k) := by
  simp [Memory.readBytes]

/-- Two buffers that agree on a window read the same bytes from it. -/
theorem Memory.readBytes_congr (m m' : Memory) (off n : Nat)
    (h : ∀ k < n, Memory.read m (off + k) = Memory.read m' (off + k)) :
    Memory.readBytes m off n = Memory.readBytes m' off n := by
  simp only [Memory.readBytes, List.map_inj_left, List.mem_range]
  exact h

/-- Bytes written in two pieces, the second behind the first. -/
theorem Memory.writeBytes_append (as bs : List Byte) (m : Memory) (off : Nat) :
    Memory.writeBytes m off (as ++ bs) = Memory.writeBytes (Memory.writeBytes m off as) (off + as.length) bs := by
  induction as generalizing m off with
  | nil => rfl
  | cons a as ih =>
    simp only [List.cons_append, Memory.writeBytes, ih, List.length_cons]
    congr 1; omega

/-- The blocks of the first `n` bytes of a buffer are the blocks at its multiples of 8. -/
theorem Memory.bytesToBlocks_readBytes (m : Memory) (n : Nat) :
    bytesToBlocks (Memory.readBytes m 0 n) = (List.range (n / 8)).map fun k => blockAt (Memory.read m) (8 * k) := by
  rw [bytesToBlocks_eq_map, Memory.length_readBytes]
  refine List.map_congr_left fun k hk => ?_
  have hk := List.mem_range.mp hk
  have h : ∀ j < n, (Memory.readBytes m 0 n).getD j 0 = Memory.read m j := fun j hj => by
    simp [Memory.readBytes, hj]
  simp only [blockAt, h _ (show 8 * k < n by omega), h _ (show 8 * k + 1 < n by omega),
    h _ (show 8 * k + 2 < n by omega), h _ (show 8 * k + 3 < n by omega), h _ (show 8 * k + 4 < n by omega),
    h _ (show 8 * k + 5 < n by omega), h _ (show 8 * k + 6 < n by omega), h _ (show 8 * k + 7 < n by omega)]

/-- Reading back the bytes just written. -/
theorem Memory.readBytes_writeBytes (bs : List Byte) (m : Memory) (off : Nat) :
    Memory.readBytes (Memory.writeBytes m off bs) off bs.length = bs := by
  apply List.ext_getElem
  · simp
  · intro k h1 h2
    rw [Memory.getElem_readBytes, Memory.read_writeBytes, if_pos (by omega)]
    simp [h2]

/-! ### The canonical form -/

theorem Memory.wf_iff (m : Memory) :
    Memory.wf m = true ↔
      m.Pairwise (fun c d => c.1 < d.1) ∧ ∀ c ∈ m, c.2 ≠ unlistedByte ∧ c.1 < lenSpace := by
  simp [Memory.wf]

theorem Memory.mem_insert (m : Memory) (off : Nat) (v : Byte) (c : Host.Cell) :
    c ∈ Memory.insert m off v ↔ c = (off, v) ∨ c ∈ m := by
  induction m with
  | nil => simp [Memory.insert]
  | cons d rest ih =>
    obtain ⟨a, b⟩ := d
    simp only [Memory.insert]
    split
    · simp
    · simp only [List.mem_cons, ih]
      exact or_left_comm

theorem Memory.pairwise_insert (m : Memory) (off : Nat) (v : Byte)
    (hm : m.Pairwise (fun c d => c.1 < d.1)) (h : ∀ c ∈ m, c.1 ≠ off) :
    (Memory.insert m off v).Pairwise (fun c d => c.1 < d.1) := by
  induction m with
  | nil => simp [Memory.insert]
  | cons d rest ih =>
    obtain ⟨a, b⟩ := d
    obtain ⟨h1, h2⟩ := List.pairwise_cons.mp hm
    have ha : a ≠ off := h (a, b) (by simp)
    simp only [Memory.insert]
    split
    · next hlt =>
      refine List.pairwise_cons.mpr ⟨fun c hc => ?_, hm⟩
      rcases List.mem_cons.mp hc with rfl | hc
      · exact hlt
      · exact lt_trans hlt (h1 c hc)
    · next hlt =>
      refine List.pairwise_cons.mpr ⟨fun c hc => ?_, ih h2 fun c hc => h c (by simp [hc])⟩
      rcases (Memory.mem_insert rest off v c).mp hc with rfl | hc
      · simp only; omega
      · exact h1 c hc

/-- A write of one byte at an offset a buffer has keeps the canonical form. -/
theorem Memory.wf_write (m : Memory) (off : Nat) (v : Byte) (hm : Memory.wf m = true) (h : off < lenSpace) :
    Memory.wf (Memory.write m off v) = true := by
  rw [Memory.wf_iff] at *
  obtain ⟨hp, hc⟩ := hm
  have hp' : (Memory.erase m off).Pairwise (fun c d => c.1 < d.1) := hp.filter _
  have hc' : ∀ c ∈ Memory.erase m off, c.2 ≠ unlistedByte ∧ c.1 < lenSpace :=
    fun c hm => hc c (List.mem_filter.mp hm).1
  unfold Memory.write
  split
  · exact ⟨hp', hc'⟩
  · next hv =>
    refine ⟨Memory.pairwise_insert _ _ _ hp' (Memory.erase_ne m off), fun c hm => ?_⟩
    rcases (Memory.mem_insert _ _ _ _).mp hm with rfl | hm
    · exact ⟨hv, h⟩
    · exact hc' c hm

/-- A write of bytes at offsets a buffer has keeps the canonical form. -/
theorem Memory.wf_writeBytes (bs : List Byte) (m : Memory) (off : Nat) (hm : Memory.wf m = true)
    (h : off + bs.length ≤ lenSpace) : Memory.wf (Memory.writeBytes m off bs) = true := by
  induction bs generalizing m off with
  | nil => exact hm
  | cons b bs ih =>
    simp only [List.length_cons] at h
    exact ih _ _ (Memory.wf_write m off b hm (by omega)) (by omega)

/-- Both buffers after reset are in canonical form. -/
theorem Memory.wf_reset : Memory.wf State.reset.inBuf = true ∧ Memory.wf State.reset.outBuf = true := by decide

/-- A cell of a canonical buffer is what a read at its offset gives. -/
theorem Memory.read_of_mem {m : Memory} {c : Host.Cell} (hm : m.Pairwise (fun c d => c.1 < d.1)) (hc : c ∈ m) :
    Memory.read m c.1 = c.2 := by
  induction m with
  | nil => cases hc
  | cons d rest ih =>
    obtain ⟨a, b⟩ := d
    obtain ⟨h1, h2⟩ := List.pairwise_cons.mp hm
    rcases List.mem_cons.mp hc with rfl | hc
    · simp [Memory.read]
    · have := h1 c hc
      simp only at this
      simp only [Memory.read, if_neg (show ¬ c.1 = a by omega)]
      exact ih h2 hc

/-- Two canonical buffers that read the same everywhere are the same data (20_memory.md R50). -/
theorem Memory.ext_of_wf {m m' : Memory} (h : Memory.wf m = true) (h' : Memory.wf m' = true)
    (hr : ∀ a, Memory.read m a = Memory.read m' a) : m = m' := by
  obtain ⟨hp, hc⟩ := (Memory.wf_iff m).mp h
  obtain ⟨hp', hc'⟩ := (Memory.wf_iff m').mp h'
  have sub : ∀ {n n' : Memory}, n.Pairwise (fun c d => c.1 < d.1) → (∀ c ∈ n, c.2 ≠ unlistedByte) →
      n'.Pairwise (fun c d => c.1 < d.1) → (∀ a, Memory.read n a = Memory.read n' a) → ∀ c ∈ n, c ∈ n' := by
    intro n n' hn hl hn' hr c hcn
    have hne : Memory.read n' c.1 ≠ unlistedByte := by rw [← hr, Memory.read_of_mem hn hcn]; exact hl c hcn
    obtain ⟨d, hd, hdc⟩ : ∃ d ∈ n', d.1 = c.1 := by
      by_contra hno
      exact hne (Memory.read_of_forall_ne _ _ fun d hd he => hno ⟨d, hd, he⟩)
    have : d.2 = c.2 := by rw [← Memory.read_of_mem hn' hd, hdc, ← hr, Memory.read_of_mem hn hcn]
    rwa [show c = d from Prod.ext hdc.symm this.symm]
  have nodup : ∀ {n : Memory}, n.Pairwise (fun c d => c.1 < d.1) → n.Nodup := fun hn =>
    hn.imp fun hlt he => absurd (congrArg Prod.fst he) (by omega)
  refine List.Perm.eq_of_pairwise (le := fun c d => c.1 < d.1) (fun a b _ _ h1 h2 => absurd h1 (by omega)) hp hp' ?_
  rw [List.perm_ext_iff_of_nodup (nodup hp) (nodup hp')]
  exact fun c => ⟨sub hp (fun c hm => (hc c hm).1) hp' hr c, sub hp' (fun c hm => (hc' c hm).1) hp (fun a => (hr a).symm) c⟩

@[simp] theorem length_freeBytes (k n : Nat) : (freeBytes k n).length = n := by
  simp [freeBytes]

end Sys2Proof.Machine
end

