-- ==== Sys2Proof/Laws/State.lean ====
section
/-! SUPPORT. What each shared operation does to each field of the state, one lemma a field, true by definition. -/

namespace Sys2Proof.Machine

open Sys2Proof

@[simp] theorem raiseStatus_status (code : StatusCode) (res : Nat) (s : State) : (raiseStatus code res s).status = endStatus code := rfl
@[simp] theorem raiseStatus_key (code : StatusCode) (res : Nat) (s : State) : (raiseStatus code res s).key = s.key := rfl
@[simp] theorem raiseStatus_blk (code : StatusCode) (res : Nat) (s : State) : (raiseStatus code res s).blk = s.blk := rfl
@[simp] theorem raiseStatus_chain (code : StatusCode) (res : Nat) (s : State) : (raiseStatus code res s).chain = s.chain := rfl
@[simp] theorem raiseStatus_inLen (code : StatusCode) (res : Nat) (s : State) : (raiseStatus code res s).inLen = s.inLen := rfl
@[simp] theorem raiseStatus_outCap (code : StatusCode) (res : Nat) (s : State) : (raiseStatus code res s).outCap = s.outCap := rfl
@[simp] theorem raiseStatus_resLen (code : StatusCode) (res : Nat) (s : State) : (raiseStatus code res s).resLen = BitVec.ofNat 32 res := rfl
@[simp] theorem raiseStatus_written (code : StatusCode) (res : Nat) (s : State) : (raiseStatus code res s).written = s.written := rfl
@[simp] theorem raiseStatus_running (code : StatusCode) (res : Nat) (s : State) : (raiseStatus code res s).running = none := rfl
@[simp] theorem raiseStatus_bt (code : StatusCode) (res : Nat) (s : State) : (raiseStatus code res s).bt = none := rfl
@[simp] theorem raiseStatus_mc (code : StatusCode) (res : Nat) (s : State) : (raiseStatus code res s).mc = none := rfl
@[simp] theorem raiseStatus_inBuf (code : StatusCode) (res : Nat) (s : State) : (raiseStatus code res s).inBuf = s.inBuf := rfl
@[simp] theorem raiseStatus_outBuf (code : StatusCode) (res : Nat) (s : State) : (raiseStatus code res s).outBuf = s.outBuf := rfl
@[simp] theorem raiseStatus_rngQueue (code : StatusCode) (res : Nat) (s : State) : (raiseStatus code res s).rngQueue = s.rngQueue := rfl
@[simp] theorem raiseStatus_rngDrawn (code : StatusCode) (res : Nat) (s : State) : (raiseStatus code res s).rngDrawn = s.rngDrawn := rfl
@[simp] theorem raiseStatus_fresh (code : StatusCode) (res : Nat) (s : State) : (raiseStatus code res s).fresh = s.fresh := rfl
@[simp] theorem raiseStatus_pending (code : StatusCode) (res : Nat) (s : State) : (raiseStatus code res s).pending = s.pending := rfl
@[simp] theorem raiseStatus_observed (code : StatusCode) (res : Nat) (s : State) : (raiseStatus code res s).observed = s.observed := rfl
@[simp] theorem raiseStatus_cfg (code : StatusCode) (res : Nat) (s : State) : (raiseStatus code res s).cfg = s.cfg := rfl

@[simp] theorem finish_status (res : Nat) (s : State) : (finish res s).status = endStatus .ok := rfl
@[simp] theorem finish_key (res : Nat) (s : State) : (finish res s).key = s.key := rfl
@[simp] theorem finish_blk (res : Nat) (s : State) : (finish res s).blk = s.blk := rfl
@[simp] theorem finish_chain (res : Nat) (s : State) : (finish res s).chain = s.chain := rfl
@[simp] theorem finish_inLen (res : Nat) (s : State) : (finish res s).inLen = s.inLen := rfl
@[simp] theorem finish_outCap (res : Nat) (s : State) : (finish res s).outCap = s.outCap := rfl
@[simp] theorem finish_resLen (res : Nat) (s : State) : (finish res s).resLen = BitVec.ofNat 32 res := rfl
@[simp] theorem finish_written (res : Nat) (s : State) : (finish res s).written = s.written := rfl
@[simp] theorem finish_running (res : Nat) (s : State) : (finish res s).running = none := rfl
@[simp] theorem finish_bt (res : Nat) (s : State) : (finish res s).bt = none := rfl
@[simp] theorem finish_mc (res : Nat) (s : State) : (finish res s).mc = none := rfl
@[simp] theorem finish_inBuf (res : Nat) (s : State) : (finish res s).inBuf = s.inBuf := rfl
@[simp] theorem finish_outBuf (res : Nat) (s : State) : (finish res s).outBuf = s.outBuf := rfl
@[simp] theorem finish_rngQueue (res : Nat) (s : State) : (finish res s).rngQueue = s.rngQueue := rfl
@[simp] theorem finish_rngDrawn (res : Nat) (s : State) : (finish res s).rngDrawn = s.rngDrawn := rfl
@[simp] theorem finish_fresh (res : Nat) (s : State) : (finish res s).fresh = s.fresh := rfl
@[simp] theorem finish_pending (res : Nat) (s : State) : (finish res s).pending = s.pending := rfl
@[simp] theorem finish_observed (res : Nat) (s : State) : (finish res s).observed = s.observed := rfl
@[simp] theorem finish_cfg (res : Nat) (s : State) : (finish res s).cfg = s.cfg := rfl

@[simp] theorem writeOut_status (off : Nat) (bs : List Byte) (s : State) : (writeOut off bs s).status = s.status := rfl
@[simp] theorem writeOut_key (off : Nat) (bs : List Byte) (s : State) : (writeOut off bs s).key = s.key := rfl
@[simp] theorem writeOut_blk (off : Nat) (bs : List Byte) (s : State) : (writeOut off bs s).blk = s.blk := rfl
@[simp] theorem writeOut_chain (off : Nat) (bs : List Byte) (s : State) : (writeOut off bs s).chain = s.chain := rfl
@[simp] theorem writeOut_inLen (off : Nat) (bs : List Byte) (s : State) : (writeOut off bs s).inLen = s.inLen := rfl
@[simp] theorem writeOut_outCap (off : Nat) (bs : List Byte) (s : State) : (writeOut off bs s).outCap = s.outCap := rfl
@[simp] theorem writeOut_resLen (off : Nat) (bs : List Byte) (s : State) : (writeOut off bs s).resLen = s.resLen := rfl
@[simp] theorem writeOut_written (off : Nat) (bs : List Byte) (s : State) : (writeOut off bs s).written = s.written := rfl
@[simp] theorem writeOut_running (off : Nat) (bs : List Byte) (s : State) : (writeOut off bs s).running = s.running := rfl
@[simp] theorem writeOut_bt (off : Nat) (bs : List Byte) (s : State) : (writeOut off bs s).bt = s.bt := rfl
@[simp] theorem writeOut_mc (off : Nat) (bs : List Byte) (s : State) : (writeOut off bs s).mc = s.mc := rfl
@[simp] theorem writeOut_inBuf (off : Nat) (bs : List Byte) (s : State) : (writeOut off bs s).inBuf = s.inBuf := rfl
@[simp] theorem writeOut_outBuf (off : Nat) (bs : List Byte) (s : State) : (writeOut off bs s).outBuf = Memory.writeBytes s.outBuf off bs := rfl
@[simp] theorem writeOut_rngQueue (off : Nat) (bs : List Byte) (s : State) : (writeOut off bs s).rngQueue = s.rngQueue := rfl
@[simp] theorem writeOut_rngDrawn (off : Nat) (bs : List Byte) (s : State) : (writeOut off bs s).rngDrawn = s.rngDrawn := rfl
@[simp] theorem writeOut_fresh (off : Nat) (bs : List Byte) (s : State) : (writeOut off bs s).fresh = s.fresh := rfl
@[simp] theorem writeOut_pending (off : Nat) (bs : List Byte) (s : State) : (writeOut off bs s).pending = s.pending := rfl
@[simp] theorem writeOut_observed (off : Nat) (bs : List Byte) (s : State) : (writeOut off bs s).observed = s.observed := rfl
@[simp] theorem writeOut_cfg (off : Nat) (bs : List Byte) (s : State) : (writeOut off bs s).cfg = s.cfg := rfl

@[simp] theorem freeOut_status (n : Nat) (s : State) : (freeOut n s).status = s.status := rfl
@[simp] theorem freeOut_key (n : Nat) (s : State) : (freeOut n s).key = s.key := rfl
@[simp] theorem freeOut_blk (n : Nat) (s : State) : (freeOut n s).blk = s.blk := rfl
@[simp] theorem freeOut_chain (n : Nat) (s : State) : (freeOut n s).chain = s.chain := rfl
@[simp] theorem freeOut_inLen (n : Nat) (s : State) : (freeOut n s).inLen = s.inLen := rfl
@[simp] theorem freeOut_outCap (n : Nat) (s : State) : (freeOut n s).outCap = s.outCap := rfl
@[simp] theorem freeOut_resLen (n : Nat) (s : State) : (freeOut n s).resLen = s.resLen := rfl
@[simp] theorem freeOut_written (n : Nat) (s : State) : (freeOut n s).written = s.written := rfl
@[simp] theorem freeOut_running (n : Nat) (s : State) : (freeOut n s).running = s.running := rfl
@[simp] theorem freeOut_bt (n : Nat) (s : State) : (freeOut n s).bt = s.bt := rfl
@[simp] theorem freeOut_mc (n : Nat) (s : State) : (freeOut n s).mc = s.mc := rfl
@[simp] theorem freeOut_inBuf (n : Nat) (s : State) : (freeOut n s).inBuf = s.inBuf := rfl
@[simp] theorem freeOut_outBuf (n : Nat) (s : State) : (freeOut n s).outBuf = Memory.writeBytes s.outBuf 0 (freeBytes s.fresh n) := rfl
@[simp] theorem freeOut_rngQueue (n : Nat) (s : State) : (freeOut n s).rngQueue = s.rngQueue := rfl
@[simp] theorem freeOut_rngDrawn (n : Nat) (s : State) : (freeOut n s).rngDrawn = s.rngDrawn := rfl
@[simp] theorem freeOut_fresh (n : Nat) (s : State) : (freeOut n s).fresh = s.fresh + n := rfl
@[simp] theorem freeOut_pending (n : Nat) (s : State) : (freeOut n s).pending = s.pending := rfl
@[simp] theorem freeOut_observed (n : Nat) (s : State) : (freeOut n s).observed = s.observed := rfl
@[simp] theorem freeOut_cfg (n : Nat) (s : State) : (freeOut n s).cfg = s.cfg := rfl

@[simp] theorem discardChain_status (s : State) : (discardChain s).status = s.status := rfl
@[simp] theorem discardChain_key (s : State) : (discardChain s).key = s.key := rfl
@[simp] theorem discardChain_blk (s : State) : (discardChain s).blk = Config.freeBlock (s.fresh + 3) := rfl
@[simp] theorem discardChain_chain (s : State) : (discardChain s).chain = ⟨Config.freeBlock s.fresh, Config.freeBlock (s.fresh + 1), Config.freeLen (s.fresh + 2)⟩ := rfl
@[simp] theorem discardChain_inLen (s : State) : (discardChain s).inLen = s.inLen := rfl
@[simp] theorem discardChain_outCap (s : State) : (discardChain s).outCap = s.outCap := rfl
@[simp] theorem discardChain_resLen (s : State) : (discardChain s).resLen = s.resLen := rfl
@[simp] theorem discardChain_written (s : State) : (discardChain s).written = ⟨s.written.key, .nothing, s.written.inLen, s.written.outCap⟩ := rfl
@[simp] theorem discardChain_running (s : State) : (discardChain s).running = s.running := rfl
@[simp] theorem discardChain_bt (s : State) : (discardChain s).bt = s.bt := rfl
@[simp] theorem discardChain_mc (s : State) : (discardChain s).mc = s.mc := rfl
@[simp] theorem discardChain_inBuf (s : State) : (discardChain s).inBuf = s.inBuf := rfl
@[simp] theorem discardChain_outBuf (s : State) : (discardChain s).outBuf = s.outBuf := rfl
@[simp] theorem discardChain_rngQueue (s : State) : (discardChain s).rngQueue = s.rngQueue := rfl
@[simp] theorem discardChain_rngDrawn (s : State) : (discardChain s).rngDrawn = s.rngDrawn := rfl
@[simp] theorem discardChain_fresh (s : State) : (discardChain s).fresh = s.fresh + 4 := rfl
@[simp] theorem discardChain_pending (s : State) : (discardChain s).pending = s.pending := rfl
@[simp] theorem discardChain_observed (s : State) : (discardChain s).observed = s.observed := rfl
@[simp] theorem discardChain_cfg (s : State) : (discardChain s).cfg = s.cfg := rfl

/-- What the chaining registers held when a message command ended makes no difference after it (10_state.md R43). -/
theorem discardChain_raiseStatus_chain (code : StatusCode) (res : Nat) (s : State) (c : Chain) :
    discardChain (raiseStatus code res { s with chain := c }) = discardChain (raiseStatus code res s) := rfl

theorem discardChain_finish_chain (res : Nat) (s : State) (c : Chain) :
    discardChain (finish res { s with chain := c }) = discardChain (finish res s) := rfl

@[simp] theorem startCommand_status (c : BitVec 8) (s : State) : (startCommand c s).status = busyStatus := rfl
@[simp] theorem startCommand_key (c : BitVec 8) (s : State) : (startCommand c s).key = s.key := rfl
@[simp] theorem startCommand_blk (c : BitVec 8) (s : State) : (startCommand c s).blk = s.blk := rfl
@[simp] theorem startCommand_chain (c : BitVec 8) (s : State) : (startCommand c s).chain = s.chain := rfl
@[simp] theorem startCommand_inLen (c : BitVec 8) (s : State) : (startCommand c s).inLen = s.inLen := rfl
@[simp] theorem startCommand_outCap (c : BitVec 8) (s : State) : (startCommand c s).outCap = s.outCap := rfl
@[simp] theorem startCommand_resLen (c : BitVec 8) (s : State) : (startCommand c s).resLen = s.resLen := rfl
@[simp] theorem startCommand_written (c : BitVec 8) (s : State) : (startCommand c s).written = s.written := rfl
@[simp] theorem startCommand_running (c : BitVec 8) (s : State) : (startCommand c s).running = some c := rfl
@[simp] theorem startCommand_bt (c : BitVec 8) (s : State) : (startCommand c s).bt = s.bt := rfl
@[simp] theorem startCommand_mc (c : BitVec 8) (s : State) : (startCommand c s).mc = s.mc := rfl
@[simp] theorem startCommand_inBuf (c : BitVec 8) (s : State) : (startCommand c s).inBuf = s.inBuf := rfl
@[simp] theorem startCommand_outBuf (c : BitVec 8) (s : State) : (startCommand c s).outBuf = s.outBuf := rfl
@[simp] theorem startCommand_rngQueue (c : BitVec 8) (s : State) : (startCommand c s).rngQueue = s.rngQueue := rfl
@[simp] theorem startCommand_rngDrawn (c : BitVec 8) (s : State) : (startCommand c s).rngDrawn = s.rngDrawn := rfl
@[simp] theorem startCommand_fresh (c : BitVec 8) (s : State) : (startCommand c s).fresh = s.fresh := rfl
@[simp] theorem startCommand_pending (c : BitVec 8) (s : State) : (startCommand c s).pending = s.pending := rfl
@[simp] theorem startCommand_observed (c : BitVec 8) (s : State) : (startCommand c s).observed = s.observed := rfl
@[simp] theorem startCommand_cfg (c : BitVec 8) (s : State) : (startCommand c s).cfg = s.cfg := rfl

@[simp] theorem writeBlk_status (B : Block) (s : State) : (writeBlk B s).status = s.status := rfl
@[simp] theorem writeBlk_key (B : Block) (s : State) : (writeBlk B s).key = s.key := rfl
@[simp] theorem writeBlk_blk (B : Block) (s : State) : (writeBlk B s).blk = B := rfl
@[simp] theorem writeBlk_chain (B : Block) (s : State) : (writeBlk B s).chain = s.chain := rfl
@[simp] theorem writeBlk_inLen (B : Block) (s : State) : (writeBlk B s).inLen = s.inLen := rfl
@[simp] theorem writeBlk_outCap (B : Block) (s : State) : (writeBlk B s).outCap = s.outCap := rfl
@[simp] theorem writeBlk_resLen (B : Block) (s : State) : (writeBlk B s).resLen = s.resLen := rfl
@[simp] theorem writeBlk_written (B : Block) (s : State) : (writeBlk B s).written = ⟨s.written.key, .value, s.written.inLen, s.written.outCap⟩ := rfl
@[simp] theorem writeBlk_running (B : Block) (s : State) : (writeBlk B s).running = s.running := rfl
@[simp] theorem writeBlk_bt (B : Block) (s : State) : (writeBlk B s).bt = s.bt := rfl
@[simp] theorem writeBlk_mc (B : Block) (s : State) : (writeBlk B s).mc = s.mc := rfl
@[simp] theorem writeBlk_inBuf (B : Block) (s : State) : (writeBlk B s).inBuf = s.inBuf := rfl
@[simp] theorem writeBlk_outBuf (B : Block) (s : State) : (writeBlk B s).outBuf = s.outBuf := rfl
@[simp] theorem writeBlk_rngQueue (B : Block) (s : State) : (writeBlk B s).rngQueue = s.rngQueue := rfl
@[simp] theorem writeBlk_rngDrawn (B : Block) (s : State) : (writeBlk B s).rngDrawn = s.rngDrawn := rfl
@[simp] theorem writeBlk_fresh (B : Block) (s : State) : (writeBlk B s).fresh = s.fresh := rfl
@[simp] theorem writeBlk_pending (B : Block) (s : State) : (writeBlk B s).pending = s.pending := rfl
@[simp] theorem writeBlk_observed (B : Block) (s : State) : (writeBlk B s).observed = s.observed := rfl
@[simp] theorem writeBlk_cfg (B : Block) (s : State) : (writeBlk B s).cfg = s.cfg := rfl

/-! ### Draws: only the RNG's two fields change -/

theorem draw_eq (s : State) :
    (draw s).2 = { s with rngQueue := s.rngQueue.drop 1, rngDrawn := s.rngDrawn + 1 } := by
  unfold draw
  split <;> simp_all

theorem draw_byte (s : State) : (draw s).1 = (s.rngQueue[0]?).getD (Config.rngByte s.rngDrawn) := by
  unfold draw
  split <;> simp_all

/-- Four draws take the first four settled bytes and count four. -/
theorem drawFour_state (s : State) :
    (drawFour s).2 = { s with rngQueue := s.rngQueue.drop 4, rngDrawn := s.rngDrawn + 4 } := by
  simp [drawFour, draw_eq, Nat.add_assoc]

/-- The four bytes drawn, in their order: a settled byte where there is one, else the free value of that draw. -/
theorem drawFour_draws (s : State) :
    (drawFour s).1 =
      ⟨(s.rngQueue[0]?).getD (Config.rngByte s.rngDrawn),
       (s.rngQueue[1]?).getD (Config.rngByte (s.rngDrawn + 1)),
       (s.rngQueue[2]?).getD (Config.rngByte (s.rngDrawn + 2)),
       (s.rngQueue[3]?).getD (Config.rngByte (s.rngDrawn + 3))⟩ := by
  simp [drawFour, draw_eq, draw_byte, Nat.add_assoc]

@[simp] theorem drawFour_status (s : State) : (drawFour s).2.status = s.status := by rw [drawFour_state]
@[simp] theorem drawFour_key (s : State) : (drawFour s).2.key = s.key := by rw [drawFour_state]
@[simp] theorem drawFour_blk (s : State) : (drawFour s).2.blk = s.blk := by rw [drawFour_state]
@[simp] theorem drawFour_chain (s : State) : (drawFour s).2.chain = s.chain := by rw [drawFour_state]
@[simp] theorem drawFour_inLen (s : State) : (drawFour s).2.inLen = s.inLen := by rw [drawFour_state]
@[simp] theorem drawFour_outCap (s : State) : (drawFour s).2.outCap = s.outCap := by rw [drawFour_state]
@[simp] theorem drawFour_resLen (s : State) : (drawFour s).2.resLen = s.resLen := by rw [drawFour_state]
@[simp] theorem drawFour_written (s : State) : (drawFour s).2.written = s.written := by rw [drawFour_state]
@[simp] theorem drawFour_running (s : State) : (drawFour s).2.running = s.running := by rw [drawFour_state]
@[simp] theorem drawFour_bt (s : State) : (drawFour s).2.bt = s.bt := by rw [drawFour_state]
@[simp] theorem drawFour_mc (s : State) : (drawFour s).2.mc = s.mc := by rw [drawFour_state]
@[simp] theorem drawFour_inBuf (s : State) : (drawFour s).2.inBuf = s.inBuf := by rw [drawFour_state]
@[simp] theorem drawFour_outBuf (s : State) : (drawFour s).2.outBuf = s.outBuf := by rw [drawFour_state]
@[simp] theorem drawFour_fresh (s : State) : (drawFour s).2.fresh = s.fresh := by rw [drawFour_state]
@[simp] theorem drawFour_pending (s : State) : (drawFour s).2.pending = s.pending := by rw [drawFour_state]
@[simp] theorem drawFour_observed (s : State) : (drawFour s).2.observed = s.observed := by rw [drawFour_state]
@[simp] theorem drawFour_cfg (s : State) : (drawFour s).2.cfg = s.cfg := by rw [drawFour_state]
@[simp] theorem drawFour_rngQueue (s : State) : (drawFour s).2.rngQueue = s.rngQueue.drop 4 := by rw [drawFour_state]
@[simp] theorem drawFour_rngDrawn (s : State) : (drawFour s).2.rngDrawn = s.rngDrawn + 4 := by rw [drawFour_state]

end Sys2Proof.Machine
end

