-- ==== Sys2Proof/Laws/MessageCodec.lean ====
section
/-! SUPPORT. What the codec's checks answer, case by case, the lengths of what it builds, and what its two loops over
blocks come to: the whole message through the chaining engine. -/

namespace Sys2Proof.Machine

open Sys2Proof

/-! ### Layout -/

@[simp] theorem length_layout (n : Nat) (d : Draws) (pt : List Byte) :
    (layout n d pt).length = 1 + n + 2 + pt.length + 7 := by
  simp [layout, trailerZeros]; omega

theorem totalLength_mod (L : Nat) : totalLength L % 8 = 0 := by
  simp only [totalLength, fillCountOf, overhead, extraRandom, trailerZeros]; omega

theorem fillCountOf_le (L : Nat) : fillCountOf L ≤ 7 := by
  simp only [fillCountOf]; omega

/-- The layout of a plaintext is as long as the total says. -/
theorem length_layout_eq_total (d : Draws) (pt : List Byte) :
    (layout (fillCountOf pt.length) d pt).length = totalLength pt.length := by
  simp [totalLength, extraRandom, trailerZeros]

/-- The ciphertext is as long as the total says (44_message_codec.md R162). -/
theorem length_encryptMessage (K : Key) (d : Draws) (pt : List Byte) :
    (encryptMessage K (fillCountOf pt.length) d pt).length = totalLength pt.length := by
  have := totalLength_mod pt.length
  simp only [encryptMessage, length_blocksToBytes, length_chainEncAll, length_bytesToBlocks, length_layout_eq_total]
  omega

/-- The recovered layout of a whole number of blocks is as long as the ciphertext. -/
theorem length_decryptMessage (K : Key) (ct : List Byte) (h : ct.length % 8 = 0) :
    (decryptMessage K ct).length = ct.length := by
  simp only [decryptMessage, length_blocksToBytes, length_chainDecAll, length_bytesToBlocks]
  omega

@[simp] theorem length_inOperand (s : State) : (inOperand s).length = s.inLen.toNat := by
  simp [inOperand, inLenOperand]

/-! ### MSG_ENC -/

/-- What MSG_ENC's checks answer (44_message_codec.md R160). -/
theorem encPlan_cases (s : State) :
    ((s.inLen.toNat = 0 ∨ lMax < s.inLen.toNat) ∧ encPlan s = .error (.invalidInput, 0)) ∨
      (1 ≤ s.inLen.toNat ∧ s.inLen.toNat ≤ lMax ∧ s.outCap.toNat < totalLength s.inLen.toNat ∧
        encPlan s = .error (.bufferTooSmall, totalLength s.inLen.toNat)) ∨
      (1 ≤ s.inLen.toNat ∧ s.inLen.toNat ≤ lMax ∧ totalLength s.inLen.toNat ≤ s.outCap.toNat ∧
        encPlan s = .ok ⟨fillCountOf s.inLen.toNat, totalLength s.inLen.toNat, 0, none, none, true⟩) := by
  unfold encPlan inLenOperand outCapOperand
  by_cases h0 : s.inLen.toNat = 0
  · exact .inl ⟨.inl h0, by simp [h0]⟩
  by_cases h1 : lMax < s.inLen.toNat
  · exact .inl ⟨.inr h1, by simp [h0, h1]⟩
  by_cases h2 : s.outCap.toNat < totalLength s.inLen.toNat
  · exact .inr (.inl ⟨by omega, by omega, h2, by simp [h0, h1, h2]⟩)
  · exact .inr (.inr ⟨by omega, by omega, by omega, by simp [h0, h1, h2]⟩)

theorem messageEnc_error (s : State) (code : StatusCode) (res : Nat) (h : encPlan s = .error (code, res)) :
    messageEnc s = raiseStatus code res s := by
  simp [messageEnc, h]

/-- `n` passes of MSG_ENC's loop: the next `n` layout blocks, encrypted, in `OUT` from the cursor on. -/
theorem encBlock_iterate (lay : List Byte) (n : Nat) (s : State) (m : McState) (hm : s.mc = some m) :
    let Bs := (List.range n).map fun k => blockAt (fun j => lay.getD j 0) (m.cursor + 8 * k)
    (encBlock lay)^[n] s =
      { writeOut m.cursor (blocksToBytes (chainEncAll s.key s.chain Bs).1) s with
        chain := (chainEncAll s.key s.chain Bs).2
        mc := some { m with cursor := m.cursor + 8 * n } } := by
  induction n generalizing s m with
  | zero => simp [writeOut, Memory.writeBytes, ← hm]
  | succ n ih =>
    have e : encBlock lay s =
        { writeOut m.cursor
            (blockToBytes (chainEncStep s.key s.chain (blockAt (fun j => lay.getD j 0) m.cursor)).1) s with
          chain := (chainEncStep s.key s.chain (blockAt (fun j => lay.getD j 0) m.cursor)).2
          mc := some { m with cursor := m.cursor + blockBytes } } := by
      simp only [encBlock, hm, keyOperand]
    rw [Function.iterate_succ_apply, e, ih _ _ rfl, List.range_succ_eq_map, List.map_cons, List.map_map]
    simp only [chainEncAll_cons, blocksToBytes_cons, writeOut, Memory.writeBytes_append, length_blockToBytes, blockBytes,
      Function.comp_def, Nat.succ_eq_add_one, Nat.mul_add, Nat.mul_one, Nat.add_assoc, Nat.mul_zero, Nat.add_zero,
      Nat.add_comm 8]

/-- What the checks of MSG_ENC hand to the loop (44_message_codec.md R155, R156). -/
theorem encPlan_ok {s : State} {m : McState} (h : encPlan s = .ok m) :
    m = ⟨fillCountOf s.inLen.toNat, totalLength s.inLen.toNat, 0, none, none, true⟩ ∧
      totalLength s.inLen.toNat ≤ s.outCap.toNat := by
  rcases encPlan_cases s with ⟨-, h'⟩ | ⟨-, -, -, h'⟩ | ⟨-, -, hc, h'⟩ <;> rw [h] at h' <;> cases h'
  exact ⟨rfl, hc⟩

/-- MSG_ENC's state after the checks pass: the four draws, then the ciphertext in `OUT`, then the success. -/
theorem messageEnc_ok (s : State) (m : McState) (h : encPlan s = .ok m) :
    messageEnc s =
      finish m.total
        { writeOut 0 (encryptMessage s.key m.fillCount (drawFour s).1 (inOperand s)) (drawFour s).2 with
          chain := (chainEncAll s.key Chain.zero (bytesToBlocks (layout m.fillCount (drawFour s).1 (inOperand s)))).2 } := by
  have hm : m.cursor = 0 ∧ (layout m.fillCount (drawFour s).1 (inOperand s)).length = m.total := by
    obtain ⟨rfl, -⟩ := encPlan_ok h
    refine ⟨rfl, ?_⟩
    simpa using length_layout_eq_total (drawFour s).1 (inOperand s)
  have hl : encLayout (beginEnc m s) = layout m.fillCount (drawFour s).1 (inOperand s) := by
    simp [encLayout, beginEnc, inOperand, inLenOperand]
  simp only [messageEnc, h]
  rw [encBlock_iterate _ _ _ _ (show (beginEnc m s).mc = some { m with draws := some (drawFour s).1 } from rfl), hl]
  simp only [hm.1, Nat.zero_add, ← hm.2, blockBytes, ← bytesToBlocks_eq_map]
  simp only [beginEnc, drawFour_state]
  rfl

/-! ### MSG_DEC -/

/-- The first recovered block is `IN[0 .. 8)` through the decrypt step from the zero state. -/
theorem firstPlain_eq (K : Key) (m : Memory) :
    firstPlain K m =
      (chainDecStep K Chain.zero
        ⟨Memory.read m 0, Memory.read m 1, Memory.read m 2, Memory.read m 3,
         Memory.read m 4, Memory.read m 5, Memory.read m 6, Memory.read m 7⟩).1 := by
  rfl

/-- What MSG_DEC's checks answer, with N the recovered fill count (44_message_codec.md R176). -/
theorem decPlan_cases (s : State) :
    let C := s.inLen.toNat
    let P1 := firstPlain s.key s.inBuf
    let N := headerCount P1
    ((C < 16 ∨ C % 8 ≠ 0) ∧ decPlan s = .error (.invalidLength, 0)) ∨
      (16 ≤ C ∧ C % 8 = 0 ∧ fillMismatch P1 = true ∧ decPlan s = .error (.integrityCheckFailed, 0)) ∨
      (16 ≤ C ∧ C % 8 = 0 ∧ fillMismatch P1 = false ∧ C < N + 10 ∧
        decPlan s = .error (overrunCode s.cfg.overrun, 0)) ∨
      (16 ≤ C ∧ C % 8 = 0 ∧ fillMismatch P1 = false ∧ N + 10 ≤ C ∧ s.outCap.toNat < C - N - 10 ∧
        decPlan s = .error (.bufferTooSmall, C - N - 10)) ∨
      (16 ≤ C ∧ C % 8 = 0 ∧ fillMismatch P1 = false ∧ N + 10 ≤ C ∧ C - N - 10 ≤ s.outCap.toNat ∧
        decPlan s = .ok ⟨N, C - N - 10, 8, none, some P1, true⟩) := by
  intro C P1 N
  by_cases h0 : C < 16 ∨ C % 8 ≠ 0
  · exact .inl ⟨h0, if_pos h0⟩
  have hC : 16 ≤ C ∧ C % 8 = 0 := by omega
  by_cases h1 : fillMismatch P1 = true
  · exact .inr (.inl ⟨hC.1, hC.2, h1, (if_neg h0).trans (if_pos h1)⟩)
  have h1' : fillMismatch P1 = false := by simpa using h1
  by_cases h2 : C < N + 10
  · exact .inr (.inr (.inl ⟨hC.1, hC.2, h1', h2, (if_neg h0).trans ((if_neg h1).trans (if_pos h2))⟩))
  by_cases h3 : s.outCap.toNat < C - N - 10
  · exact .inr (.inr (.inr (.inl ⟨hC.1, hC.2, h1', by omega, h3,
      (if_neg h0).trans ((if_neg h1).trans ((if_neg h2).trans (if_pos h3)))⟩)))
  · exact .inr (.inr (.inr (.inr ⟨hC.1, hC.2, h1', by omega, by omega,
      (if_neg h0).trans ((if_neg h1).trans ((if_neg h2).trans (if_neg h3)))⟩)))

theorem messageDec_error (s : State) (code : StatusCode) (res : Nat) (h : decPlan s = .error (code, res)) :
    messageDec s = raiseStatus code res s := by
  simp [messageDec, h]

/-- `n` passes of MSG_DEC's loop: the next `n` blocks recovered behind PL, and the zero-run accumulator over their bytes
from the trailer's start on. -/
theorem decBlock_iterate (n : Nat) (pl : List Byte) (s : State) (m : McState) (hm : s.mc = some m) :
    let Bs := (List.range n).map fun k => blockAt (Memory.read s.inBuf) (m.cursor + 8 * k)
    let new := blocksToBytes (chainDecAll s.key s.chain Bs).1
    decBlock^[n] (pl, s) =
      (pl ++ new,
        { s with
          chain := (chainDecAll s.key s.chain Bs).2
          mc := some { m with
            cursor := m.cursor + 8 * n
            zeroRun := m.zeroRun && (new.drop (trailerStart m - m.cursor)).all (fun b => b == 0x00) } }) := by
  induction n generalizing pl s m with
  | zero => simp [← hm]
  | succ n ih =>
    set B := blockAt (Memory.read s.inBuf) m.cursor with hB
    have e : decBlock (pl, s) =
        (pl ++ blockToBytes (chainDecStep s.key s.chain B).1,
          { s with
            chain := (chainDecStep s.key s.chain B).2
            mc := some { m with
              cursor := m.cursor + 8
              zeroRun := m.zeroRun && blockTrailerZero (trailerStart m) m.cursor (chainDecStep s.key s.chain B).1 } }) := by
      simp only [decBlock, hm, keyOperand, blockBytes, hB]
    rw [Function.iterate_succ_apply, e, ih _ _ _ rfl, List.range_succ_eq_map, List.map_cons, List.map_map]
    simp only [chainDecAll_cons, blocksToBytes_cons, blockTrailerZero, List.drop_append, length_blockToBytes,
      List.all_append, Function.comp_def, Nat.succ_eq_add_one, Nat.mul_add, Nat.mul_one, Nat.add_assoc, Nat.mul_zero,
      Nat.add_zero, Nat.add_comm 8, List.append_assoc, Bool.and_assoc, ← hB, trailerStart, Nat.sub_sub]

/-- What the checks of MSG_DEC hand to the loop (44_message_codec.md R166 to R170). -/
theorem decPlan_ok {s : State} {m : McState} (h : decPlan s = .ok m) :
    16 ≤ s.inLen.toNat ∧ s.inLen.toNat % 8 = 0 ∧
      m = ⟨headerCount (firstPlain s.key s.inBuf), m.total, 8, none, some (firstPlain s.key s.inBuf), true⟩ ∧
      m.total = s.inLen.toNat - m.fillCount - 10 ∧ m.fillCount + 10 ≤ s.inLen.toNat ∧ m.total ≤ s.outCap.toNat := by
  rcases decPlan_cases s with ⟨-, h'⟩ | ⟨-, -, -, h'⟩ | ⟨-, -, -, -, h'⟩ | ⟨-, -, -, -, -, h'⟩ | ⟨h16, h8, -, hN, hc, h'⟩ <;>
    rw [h] at h' <;> cases h'
  exact ⟨h16, h8, rfl, rfl, hN, hc⟩

/-- After the last block PL is the whole recovered layout, and the zero-run accumulator says whether its last 7 bytes are
zero; of the state only the chaining registers and the codec differ. -/
theorem decStream_eq (s : State) (m : McState) (h : decPlan s = .ok m) :
    (decStream m s).1 = decryptMessage s.key (inOperand s) ∧
      zeroRunHolds (decStream m s).2 = trailerZero (decryptMessage s.key (inOperand s)) ∧
      ∃ c m', (decStream m s).2 = { s with chain := c, mc := m' } := by
  obtain ⟨h16, h8, hm, ht, hN, -⟩ := decPlan_ok h
  set O := blockAt (Memory.read s.inBuf) 0 with hO
  have hf : m.firstBlock = some (chainDecStep s.key Chain.zero O).1 := by rw [hm]; rfl
  have hcur : m.cursor = 8 := by rw [hm]
  have hzr : m.zeroRun = true := by rw [hm]
  obtain ⟨q, hq⟩ : ∃ q, s.inLen.toNat / 8 = q + 1 := ⟨s.inLen.toNat / 8 - 1, by omega⟩
  have hB : bytesToBlocks (inOperand s) = O :: (List.range q).map fun k => blockAt (Memory.read s.inBuf) (8 + 8 * k) := by
    rw [inOperand, inLenOperand, Memory.bytesToBlocks_readBytes, hq, List.range_succ_eq_map, List.map_cons, List.map_map]
    simp only [Function.comp_def, Nat.succ_eq_add_one, Nat.mul_add, Nat.mul_one, Nat.add_comm 8, hO, Nat.mul_zero]
  have hit := decBlock_iterate q (blockToBytes (chainDecStep s.key Chain.zero O).1) (beginDec m s) m rfl
  have hs : decStream m s = decBlock^[q] (blockToBytes (chainDecStep s.key Chain.zero O).1, beginDec m s) := by
    simp only [decStream, hf, inLenOperand, blockBytes, hq, Nat.add_sub_cancel, Option.map_some, Option.getD_some]
  have hlen : (decryptMessage s.key (inOperand s)).length = s.inLen.toNat := by
    rw [length_decryptMessage] <;> simp [h8]
  have hpl : decryptMessage s.key (inOperand s) =
      blockToBytes (chainDecStep s.key Chain.zero O).1 ++
        blocksToBytes (chainDecAll s.key (chainDecStep s.key Chain.zero O).2
          ((List.range q).map fun k => blockAt (Memory.read s.inBuf) (8 + 8 * k))).1 := by
    rw [decryptMessage, hB, chainDecAll_cons, blocksToBytes_cons]
  rw [hs, hit]
  refine ⟨?_, ?_, _, _, rfl⟩
  · rw [hpl, hcur]; rfl
  · have hts : trailerStart m = s.inLen.toNat - 7 := by simp only [trailerStart, extraRandom]; omega
    have hd : ∀ B : Block, (blockToBytes B).drop (s.inLen.toNat - 7) = [] := fun B =>
      List.drop_eq_nil_of_le (by rw [length_blockToBytes]; omega)
    rw [trailerZero, hlen, trailerZeros, hpl, List.drop_append, hd]
    simp only [zeroRunHolds, hzr, Bool.true_and, hcur, hts, List.nil_append, length_blockToBytes]
    rfl

/-- MSG_DEC's state after the checks pass and the trailer is zero. -/
theorem messageDec_ok (s : State) (m : McState) (h : decPlan s = .ok m)
    (ht : trailerZero (decryptMessage s.key (inOperand s)) = true) :
    ∃ c, messageDec s =
      finish m.total
        { writeOut 0 (copyWindow m.fillCount m.total (decryptMessage s.key (inOperand s))) s with chain := c } := by
  obtain ⟨h1, h2, c, m', h3⟩ := decStream_eq s m h
  refine ⟨c, ?_⟩
  simp only [messageDec, h, h2, ht, if_true, h1]
  rw [h3]; rfl

/-- MSG_DEC's state after the checks pass and the trailer is not zero. -/
theorem messageDec_trailer (s : State) (m : McState) (h : decPlan s = .ok m)
    (ht : trailerZero (decryptMessage s.key (inOperand s)) = false) :
    ∃ c, messageDec s = raiseStatus .integrityCheckFailed 0 { freeOut m.total s with chain := c } := by
  obtain ⟨h1, h2, c, m', h3⟩ := decStream_eq s m h
  refine ⟨c, ?_⟩
  simp only [messageDec, h, h2, ht, Bool.false_eq_true, if_false]
  rw [h3]; rfl

theorem headerCount_lt (P : Block) : headerCount P < 8 := by
  unfold headerCount hdrMask
  have : (P.b0 &&& 0x07).toNat ≤ (0x07 : BitVec 8).toNat := by
    rw [BitVec.toNat_and]; exact Nat.and_le_right
  simp at this ⊢; omega

/-! ### What the codec depends on -/

/-- MSG_ENC's checks depend on `IN_LEN` and `OUT_CAP` only (44_message_codec.md R182). -/
theorem encPlan_congr (s s' : State) (hi : s'.inLen = s.inLen) (ho : s'.outCap = s.outCap) :
    encPlan s' = encPlan s := by
  unfold encPlan inLenOperand outCapOperand
  rw [hi, ho]

/-- The message in `IN` depends on `IN[0 .. IN_LEN)` only (20_memory.md R51). -/
theorem inOperand_congr (s s' : State) (hi : s'.inLen = s.inLen)
    (h : ∀ a, a < s.inLen.toNat → Memory.read s'.inBuf a = Memory.read s.inBuf a) : inOperand s' = inOperand s := by
  simp only [inOperand, inLenOperand, hi]
  exact Memory.readBytes_congr _ _ _ _ fun k hk => by rw [Nat.zero_add]; exact h k hk

/-- The first recovered block depends on `IN[0 .. 8)` only (44_message_codec.md R167). -/
theorem firstPlain_congr (K : Key) (m m' : Memory) (h : ∀ a < 8, Memory.read m' a = Memory.read m a) :
    firstPlain K m' = firstPlain K m := by
  simp only [firstPlain_eq, h 0 (by omega), h 1 (by omega), h 2 (by omega), h 3 (by omega), h 4 (by omega),
    h 5 (by omega), h 6 (by omega), h 7 (by omega)]

/-- MSG_DEC's checks depend on `KEY`, `IN_LEN`, `OUT_CAP`, `IN[0 .. IN_LEN)` and the parameters only
(44_message_codec.md R182). -/
theorem decPlan_congr (s s' : State) (hk : s'.key = s.key) (hi : s'.inLen = s.inLen) (ho : s'.outCap = s.outCap)
    (hc : s'.cfg = s.cfg) (h : ∀ a, a < s.inLen.toNat → Memory.read s'.inBuf a = Memory.read s.inBuf a) :
    decPlan s' = decPlan s := by
  unfold decPlan inLenOperand keyOperand outCapOperand
  rw [hk, hi, ho, hc]
  by_cases hL : s.inLen.toNat < minCt ∨ s.inLen.toNat % blockBytes ≠ 0
  · exact (if_pos hL).trans (if_pos hL).symm
  · rw [firstPlain_congr s.key s.inBuf s'.inBuf fun a ha => h a (by simp [minCt] at hL; omega)]

end Sys2Proof.Machine
end

