-- ==== Sys2Proof/Laws/Exec.lean ====
section
/-! SUPPORT. Each command's meaning as one equation over the shared operations, so that `exec` need not be unfolded. -/

namespace Sys2Proof.Machine

open Sys2Proof

/-- A block command while `BLK` holds a value. -/
theorem withBlk_ok {s : State} (h : s.written.blk ≠ .nothing) (f : Block → State) : withBlk s f = .next (f s.blk) := by
  simp [withBlk, noValue, h]

/-- A block command while `BLK` holds none (10_state.md R38). -/
theorem withBlk_nothing {s : State} (h : s.written.blk = .nothing) (f : Block → State) :
    withBlk s f = .fault (.unwrittenRegister .blk) := by
  simp [withBlk, noValue, h]

theorem exec_teaEnc {s : State} (h : s.written.blk ≠ .nothing) :
    exec .teaEnc s = .next (finish 8 (writeBlk (encryptBlock s.blk s.key) s)) := by
  rw [exec, execTeaEnc, withBlk_ok h]; rfl

theorem exec_teaDec {s : State} (h : s.written.blk ≠ .nothing) :
    exec .teaDec s = .next (finish 8 (writeBlk (decryptBlock s.blk s.key) s)) := by
  rw [exec, execTeaDec, withBlk_ok h]; rfl

theorem exec_chainInit (s : State) : exec .chainInit s = .next (finish 0 { s with chain := Chain.zero }) := rfl

theorem exec_chainEnc {s : State} (h : s.written.blk ≠ .nothing) :
    exec .chainEnc s =
      .next (finish 8 (writeBlk (chainEncStep s.key s.chain s.blk).1 { s with chain := (chainEncStep s.key s.chain s.blk).2 })) := by
  rw [exec, execChainEnc, withBlk_ok h]; rfl

theorem exec_chainDec {s : State} (h : s.written.blk ≠ .nothing) :
    exec .chainDec s =
      .next (finish 8 (writeBlk (chainDecStep s.key s.chain s.blk).1 { s with chain := (chainDecStep s.key s.chain s.blk).2 })) := by
  rw [exec, execChainDec, withBlk_ok h]; rfl

/-- Each of the four block commands faults while `BLK` holds no value (10_state.md R38, 60_exceptions.md R208). -/
theorem exec_block_fault {i : Instr} {s : State} (hi : i = .teaEnc ∨ i = .teaDec ∨ i = .chainEnc ∨ i = .chainDec)
    (h : s.written.blk = .nothing) : exec i s = .fault (.unwrittenRegister .blk) := by
  rcases hi with rfl | rfl | rfl | rfl
  · rw [exec, execTeaEnc, withBlk_nothing h]
  · rw [exec, execTeaDec, withBlk_nothing h]
  · rw [exec, execChainEnc, withBlk_nothing h]
  · rw [exec, execChainDec, withBlk_nothing h]

theorem exec_msgEnc (s : State) : exec .msgEnc s = .next (discardChain (messageEnc s)) := rfl

theorem exec_msgDec (s : State) : exec .msgDec s = .next (discardChain (messageDec s)) := rfl

/-- MSG_ENC as the whole message through the chaining engine (44_message_codec.md R150). -/
theorem exec_msgEnc_eq (s : State) :
    exec .msgEnc s =
      .next (discardChain
        (match encPlan s with
        | .error (code, res) => raiseStatus code res s
        | .ok m =>
          finish m.total
            (writeOut 0 (encryptMessage s.key m.fillCount (drawFour s).1 (inOperand s)) (drawFour s).2))) := by
  rw [exec_msgEnc]
  cases h : encPlan s with
  | error e => rw [messageEnc_error _ _ _ h]
  | ok m => rw [messageEnc_ok _ _ h, discardChain_finish_chain]

/-- MSG_DEC as the whole message through the chaining engine (44_message_codec.md R151). -/
theorem exec_msgDec_eq (s : State) :
    exec .msgDec s =
      .next (discardChain
        (match decPlan s with
        | .error (code, res) => raiseStatus code res s
        | .ok m =>
          if trailerZero (decryptMessage s.key (inOperand s)) then
            finish m.total (writeOut 0 (copyWindow m.fillCount m.total (decryptMessage s.key (inOperand s))) s)
          else raiseStatus .integrityCheckFailed 0 (freeOut m.total s))) := by
  rw [exec_msgDec]
  cases h : decPlan s with
  | error e => rw [messageDec_error _ _ _ h]
  | ok m =>
    cases ht : trailerZero (decryptMessage s.key (inOperand s))
    · obtain ⟨c, e⟩ := messageDec_trailer _ _ h ht
      simp only [Bool.false_eq_true, if_false, e, discardChain_raiseStatus_chain]
    · obtain ⟨c, e⟩ := messageDec_ok _ _ h ht
      simp only [if_true, e, discardChain_finish_chain]

/-- MSG_ENC's outcome is a report with nothing written, or the ciphertext in `OUT` after four draws. -/
theorem exec_msgEnc_cases (s : State) :
    (∃ code res, encPlan s = .error (code, res) ∧ (code = .invalidInput ∧ res = 0 ∨ code = .bufferTooSmall) ∧
      exec .msgEnc s = .next (discardChain (raiseStatus code res s))) ∨
      (encPlan s = .ok ⟨fillCountOf s.inLen.toNat, totalLength s.inLen.toNat, 0, none, none, true⟩ ∧
        totalLength s.inLen.toNat ≤ s.outCap.toNat ∧
        exec .msgEnc s =
          .next (discardChain (finish (totalLength s.inLen.toNat)
            (writeOut 0 (encryptMessage s.key (fillCountOf s.inLen.toNat) (drawFour s).1 (inOperand s)) (drawFour s).2)))) := by
  rw [exec_msgEnc_eq]
  rcases encPlan_cases s with ⟨-, h⟩ | ⟨-, -, -, h⟩ | ⟨-, -, hcap, h⟩ <;> rw [h]
  · exact .inl ⟨_, _, rfl, .inl ⟨rfl, rfl⟩, rfl⟩
  · exact .inl ⟨_, _, rfl, .inr rfl, rfl⟩
  · exact .inr ⟨rfl, hcap, rfl⟩

/-- MSG_DEC's outcome is a report with nothing written, the plaintext in `OUT`, or a report with free bytes in `OUT`. -/
theorem exec_msgDec_cases (s : State) :
    (∃ code res, decPlan s = .error (code, res) ∧
      (res = 0 ∧ (code = .invalidLength ∨ code = .integrityCheckFailed ∨ code = overrunCode s.cfg.overrun) ∨
        code = .bufferTooSmall) ∧
      exec .msgDec s = .next (discardChain (raiseStatus code res s))) ∨
      ∃ m, decPlan s = .ok m ∧ m.total ≤ s.outCap.toNat ∧ m.fillCount + 10 ≤ s.inLen.toNat ∧
        m.total = s.inLen.toNat - m.fillCount - 10 ∧ s.inLen.toNat % 8 = 0 ∧
        (trailerZero (decryptMessage s.key (inOperand s)) = true ∧
            exec .msgDec s =
              .next (discardChain (finish m.total
                (writeOut 0 (copyWindow m.fillCount m.total (decryptMessage s.key (inOperand s))) s))) ∨
          trailerZero (decryptMessage s.key (inOperand s)) = false ∧
            exec .msgDec s =
              .next (discardChain (raiseStatus .integrityCheckFailed 0 (freeOut m.total s)))) := by
  rw [exec_msgDec_eq]
  rcases decPlan_cases s with ⟨-, h⟩ | ⟨-, -, -, h⟩ | ⟨-, -, -, -, h⟩ | ⟨-, -, -, -, -, h⟩ | ⟨-, h8, -, hN, hcap, h⟩ <;>
    rw [h]
  · exact .inl ⟨_, _, rfl, .inl ⟨rfl, .inl rfl⟩, rfl⟩
  · exact .inl ⟨_, _, rfl, .inl ⟨rfl, .inr (.inl rfl)⟩, rfl⟩
  · exact .inl ⟨_, _, rfl, .inl ⟨rfl, .inr (.inr rfl)⟩, rfl⟩
  · exact .inl ⟨_, _, rfl, .inr rfl, rfl⟩
  · refine .inr ⟨_, rfl, hcap, hN, rfl, h8, ?_⟩
    cases trailerZero (decryptMessage s.key (inOperand s))
    · exact .inr ⟨rfl, rfl⟩
    · exact .inl ⟨rfl, rfl⟩

end Sys2Proof.Machine
end

