-- ==== Sys2Proof/Laws/Normalizer.lean ====
section
/-! SUPPORT. A word in wire order is its bytes joined, the first the most significant. -/

namespace Sys2Proof.Machine

open Sys2Proof

/-- The word of four bytes is the bytes joined, byte 0 first. -/
theorem wire32ToWord_eq_append (b0 b1 b2 b3 : Byte) : wire32ToWord b0 b1 b2 b3 = b0 ++ b1 ++ b2 ++ b3 := by
  apply BitVec.eq_of_getLsbD_eq
  intro i hi
  simp only [wire32ToWord, BitVec.getLsbD_append, BitVec.getLsbD_or, BitVec.getLsbD_shiftLeft,
    BitVec.truncate_eq_setWidth, BitVec.getLsbD_setWidth]
  interval_cases i <;> simp

/-- The half word of two bytes is the bytes joined, byte 0 first. -/
theorem wire16ToHalf_eq_append (b0 b1 : Byte) : wire16ToHalf b0 b1 = b0 ++ b1 := by
  apply BitVec.eq_of_getLsbD_eq
  intro i hi
  simp only [wire16ToHalf, BitVec.getLsbD_append, BitVec.getLsbD_or, BitVec.getLsbD_shiftLeft,
    BitVec.truncate_eq_setWidth, BitVec.getLsbD_setWidth]
  interval_cases i <;> simp

end Sys2Proof.Machine
end

