-- ==== Sys2Proof/Laws/PerInstr.lean ====
section
/-! SUPPORT. The per-instruction family `RoundTrip`: each command's word is accepted and decodes to it, also in the
opcode table's numbering of bits (30_encoding.md R70, R71). -/

namespace Sys2Proof.Laws.RoundTrip

open Sys2Proof

/-- The command is well formed, its word is one of the defined ones, and both decoders give the command back. -/
def Statement (i : Instr) : Prop :=
  i.wellFormed = true ∧ commandDefined (encode i) = true ∧ decodeBytes (encodeBytes i) = .ok (i, []) ∧
    decodeTableWord 8 (encode i).toNat = some i

theorem teaEnc : Statement .teaEnc := ⟨rfl, rfl, rfl, rfl⟩

theorem teaDec : Statement .teaDec := ⟨rfl, rfl, rfl, rfl⟩

theorem chainInit : Statement .chainInit := ⟨rfl, rfl, rfl, rfl⟩

theorem chainEnc : Statement .chainEnc := ⟨rfl, rfl, rfl, rfl⟩

theorem chainDec : Statement .chainDec := ⟨rfl, rfl, rfl, rfl⟩

theorem msgEnc : Statement .msgEnc := ⟨rfl, rfl, rfl, rfl⟩

theorem msgDec : Statement .msgDec := ⟨rfl, rfl, rfl, rfl⟩

end Sys2Proof.Laws.RoundTrip
end

