-- ==== Sys2Proof/Laws/Step.lean ====
section
/-! SUPPORT. What a step can do, said once: the core's move, each host access, a wait, and a reset. -/

namespace Sys2Proof.Machine

open Sys2Proof

/-- The core's move never stops: it keeps an idle machine, runs the command its byte decodes to, or reports a reserved
word. -/
theorem coreMove_cases (s : State) :
    (s.running = none ∧ coreMove s = .next s) ∨
      (∃ c i, s.running = some c ∧ decodeWord c = .ok i ∧ coreMove s = exec i s) ∨
      ∃ c e, s.running = some c ∧ decodeWord c = .error e ∧ coreMove s = .next (illegalCommand s) := by
  unfold coreMove
  split
  · next h => exact .inl ⟨h, rfl⟩
  · next c h =>
    split
    · next i hd => exact .inr (.inl ⟨c, i, h, hd, rfl⟩)
    · next e hd => exact .inr (.inr ⟨c, e, h, hd, rfl⟩)

/-! ### The host's accesses -/

@[simp] theorem offsetsExist_iff (off n : Nat) : offsetsExist off n = true ↔ off + n ≤ 2 ^ 32 :=
  decide_eq_true_iff

/-- The host's move is its access, used up. -/
theorem step_host {s : State} {a : HostAction} {after : List Move} (hp : s.pending = .host a :: after) :
    step s = hostMove a { s with pending := after } := by
  simp [step, moveNext, hp]

/-- While the core is idle every access has its meaning (70_reset_and_hazards.md R237). -/
theorem hostMove_idle {s : State} (a : HostAction) (hb : busyBit s.status = false) : hostMove a s = hostAccess a s := by
  simp [hostMove, hb]

/-- The host's read of a `BLK` without a value faults (10_state.md R38, 70_reset_and_hazards.md R245). -/
theorem step_readBlk_nothing {s : State} {after : List Move} (hp : s.pending = .host (.readReg 0x03) :: after)
    (hb : busyBit s.status = false) (h : s.written.blk = .nothing) : step s = .fault (.unwrittenRegister .blk) := by
  rw [step_host hp, hostMove_idle (s := { s with pending := after }) _ hb]
  simp only [hostAccess, hostReadReg, regOfNumber, regValue, noValue, h]
  rfl

/-- A host access that completes is a read that is only recorded, or, while the core is idle, a command's start or a
write of one register or of bytes of one buffer. -/
theorem hostMove_next (a : HostAction) (s t : State) (h : hostMove a s = .next t) :
    (∃ v, t = { s with observed := v :: s.observed }) ∨
      busyBit s.status = false ∧
        ((∃ c, a = .writeReg 0x00 (.byte c) ∧ t = startCommand c s) ∨
          (∃ k, a = .writeReg 0x02 (.key k) ∧ t = { s with key := k, written := { s.written with key := true } }) ∨
          (∃ b, a = .writeReg 0x03 (.block b) ∧ t = writeBlk b s) ∨
          (∃ n, a = .writeReg 0x07 (.len n) ∧ t = { s with inLen := n, written := { s.written with inLen := true } }) ∨
          (∃ n, a = .writeReg 0x08 (.len n) ∧ t = { s with outCap := n, written := { s.written with outCap := true } }) ∨
          (∃ off bs, a = .writeIn off bs ∧ off + bs.length ≤ lenSpace ∧
            t = { s with inBuf := Memory.writeBytes s.inBuf off bs }) ∨
          ∃ off bs, a = .writeOut off bs ∧ off + bs.length ≤ lenSpace ∧ t = writeOut off bs s) := by
  unfold hostMove at h
  split at h
  · cases h
  next hb =>
  cases a with
  | readReg no =>
    simp only [hostAccess, hostReadReg] at h
    split at h
    · cases h
    · split at h
      · cases h
      · split at h
        · cases h
        · cases h; exact .inl ⟨_, rfl⟩
  | readIn off n =>
    simp only [hostAccess, hostReadIn] at h
    split at h
    · cases h; exact .inl ⟨_, rfl⟩
    · cases h
  | readOut off n =>
    simp only [hostAccess, hostReadOut] at h
    split at h
    · cases h; exact .inl ⟨_, rfl⟩
    · cases h
  | shareBuffers => cases h
  | writeIn off bs =>
    have hb' : busyBit s.status = false := by simpa [allowedWhileBusy] using hb
    simp only [hostAccess, hostWriteIn, offsetsExist, decide_eq_true_eq] at h
    split at h
    · next hl => cases h; exact .inr ⟨hb', .inr (.inr (.inr (.inr (.inr (.inl ⟨off, bs, rfl, hl, rfl⟩)))))⟩
    · cases h
  | writeOut off bs =>
    have hb' : busyBit s.status = false := by simpa [allowedWhileBusy] using hb
    simp only [hostAccess, hostWriteOut, offsetsExist, decide_eq_true_eq] at h
    split at h
    · next hl => cases h; exact .inr ⟨hb', .inr (.inr (.inr (.inr (.inr (.inr ⟨off, bs, rfl, hl, rfl⟩)))))⟩
    · cases h
  | writeReg no v =>
    have hb' : busyBit s.status = false := by simpa [allowedWhileBusy] using hb
    simp only [hostAccess, hostWriteReg] at h
    split at h
    · cases h
    · next r hr =>
      have hno : no = numberOfReg r := regOfNumber_some hr
      refine .inr ⟨hb', ?_⟩
      subst hno
      cases r <;> cases v <;> simp only [hostWrite, Reg.writable, Bool.false_eq_true, if_true, if_false] at h <;> cases h
      · exact .inl ⟨_, rfl, rfl⟩
      · exact .inr (.inl ⟨_, rfl, rfl⟩)
      · exact .inr (.inr (.inl ⟨_, rfl, rfl⟩))
      · exact .inr (.inr (.inr (.inl ⟨_, rfl, rfl⟩)))
      · exact .inr (.inr (.inr (.inr (.inl ⟨_, rfl, rfl⟩))))

/-! ### Reset -/

/-- What abandoning a command leaves: nothing changes, or the bytes of `OUT` that a message command could have written
are free, and an encryption may have taken up to four draws. -/
theorem abandonCommand_cases (s : State) :
    abandonCommand s = s ∨
      ∃ c i, s.running = some c ∧ decodeWord c = .ok i ∧ outReach i s ≠ 0 ∧
        abandonCommand s = abandonDraws i (freeOut (outReach i s) s) := by
  unfold abandonCommand
  split
  · exact .inl rfl
  · next c hc =>
    split
    · exact .inl rfl
    · next i hi =>
      split
      · exact .inl rfl
      · next h => exact .inr ⟨c, i, hc, hi, h, rfl⟩

/-- What the draws of an abandoned command can change: the RNG's two fields, by at most four draws, and only for an
encryption. -/
theorem abandonDraws_cases (i : Instr) (s : State) :
    (i ≠ .msgEnc ∧ abandonDraws i s = s) ∨
      ∃ k ≤ 4, i = .msgEnc ∧
        abandonDraws i s = { s with rngQueue := s.rngQueue.drop k, rngDrawn := s.rngDrawn + k, fresh := s.fresh + 1 } := by
  cases i
  case msgEnc => exact .inr ⟨_, Nat.le_of_lt_succ (Config.freeDraws s.fresh).isLt, rfl, rfl⟩
  all_goals exact .inl ⟨nofun, rfl⟩

@[simp] theorem abandonDraws_outBuf (i : Instr) (s : State) : (abandonDraws i s).outBuf = s.outBuf := by
  cases i <;> rfl

/-- No command could write `OUT` at `OUT_CAP` or beyond (20_memory.md R52). -/
theorem outReach_le (i : Instr) (s : State) : outReach i s ≤ s.outCap.toNat := by
  cases i <;> simp only [outReach, Nat.zero_le]
  · rcases encPlan_cases s with ⟨-, h⟩ | ⟨-, -, -, h⟩ | ⟨-, -, hc, h⟩ <;> rw [h]
    · exact Nat.zero_le _
    · exact Nat.zero_le _
    · exact hc
  · rcases decPlan_cases s with ⟨-, h⟩ | ⟨-, -, -, h⟩ | ⟨-, -, -, -, h⟩ | ⟨-, -, -, -, -, h⟩ | ⟨-, -, -, -, hc, h⟩ <;>
      rw [h]
    · exact Nat.zero_le _
    · exact Nat.zero_le _
    · exact Nat.zero_le _
    · exact Nat.zero_le _
    · exact hc

/-! ### One step -/

/-- What a step that completes did: the core moved, with or without a move of its own to use up, or a host access
completed, or a wait went on or ended, or the RNG settled its bytes, or reset was asserted. -/
theorem step_next (s t : State) (h : step s = .next t) :
    coreMove s = .next t ∨
      (∃ after, s.pending = .core :: after ∧ coreMove { s with pending := after } = .next t) ∨
      (∃ a after, s.pending = .host a :: after ∧ hostMove a { s with pending := after } = .next t) ∨
      (s.running = none ∧ ∃ after, s.pending = .wait :: after ∧ (t = s ∨ t = { s with pending := after })) ∨
      (∃ bs after, s.pending = .rng bs :: after ∧ t = { s with rngQueue := bs, pending := after }) ∨
      ∃ after, s.pending = .reset :: after ∧ t = assertReset { s with pending := after } := by
  unfold step moveNext at h
  split at h
  · exact .inl h
  · next after hp =>
    unfold waitMove at h
    split at h
    · exact .inl h
    · next hr =>
      refine .inr (.inr (.inr (.inl ⟨hr, after, hp, ?_⟩)))
      split at h <;> cases h
      · exact .inr rfl
      · exact .inl rfl
  · next a after hp => exact .inr (.inr (.inl ⟨a, after, hp, h⟩))
  · next after hp => exact .inr (.inl ⟨after, hp, h⟩)
  · next bs after hp => cases h; exact .inr (.inr (.inr (.inr (.inl ⟨bs, after, hp, rfl⟩))))
  · next after hp => cases h; exact .inr (.inr (.inr (.inr (.inr ⟨after, hp, rfl⟩))))

end Sys2Proof.Machine
end

