-- ==== Sys2Proof/Tests/Slice0.lean ====
section
/-! SUPPORT. Small tests: command words written out bit by bit, ill-formed input refused, vectors of
95_test_vectors.md run for one step, and a witness for the hypotheses of every statement that has any. -/

namespace Sys2Proof.Tests

-- The tests are elaborated one after another: each waits for the kernel, and all at once would hold a thread each.
set_option Elab.async false

open Sys2Proof Sys2Proof.Machine

/-! ### Helpers -/

/-- K0 of 95_test_vectors.md: sixteen zero bytes. -/
def keyZero : Key := ⟨0x00, 0x00, 0x00, 0x00, 0x00, 0x00, 0x00, 0x00, 0x00, 0x00, 0x00, 0x00, 0x00, 0x00, 0x00, 0x00⟩

/-- KR of 95_test_vectors.md: the reference key. -/
def keyRef : Key := ⟨0x31, 0x32, 0x33, 0x34, 0x35, 0x36, 0x37, 0x38, 0x39, 0x61, 0x62, 0x63, 0x64, 0x65, 0x66, 0x00⟩

/-- KW of 95_test_vectors.md: the wrong key. -/
def keyWrong : Key := ⟨0x31, 0x32, 0x33, 0x34, 0x35, 0x36, 0x37, 0x38, 0x39, 0x61, 0x62, 0x63, 0x64, 0x65, 0x67, 0x00⟩

/-- K1 of 95_test_vectors.md: distinct bytes. -/
def keyCount : Key := ⟨0x00, 0x01, 0x02, 0x03, 0x04, 0x05, 0x06, 0x07, 0x08, 0x09, 0x0A, 0x0B, 0x0C, 0x0D, 0x0E, 0x0F⟩

/-- The output block of V1. -/
def v1Out : Block := ⟨0xA8, 0x89, 0xF7, 0x98, 0x18, 0x2D, 0x80, 0x83⟩

/-- The ciphertext of V15. -/
def v15Out : List Byte :=
  [0x42, 0x27, 0x13, 0xAF, 0xF9, 0xC3, 0x6C, 0x4F, 0xFF, 0xF3, 0x6D, 0x5B, 0x7C, 0xAB, 0x5E, 0x73]

/-- An idle machine whose four host registers are written. -/
def withRegs (k : Key) (b : Block) (n c : Len) : State :=
  { State.reset with key := k, blk := b, inLen := n, outCap := c, written := ⟨true, .value, true, true⟩ }

/-- The machine after a message command: every register written but `BLK`, which holds no value. -/
def afterMessage : State :=
  { withRegs keyRef Block.zero 0 0 with written := ⟨true, .nothing, true, true⟩ }

/-- An idle machine set up for a message command: key, `IN`, `IN_LEN` and `OUT_CAP`. -/
def withMessage (k : Key) (bs : List Byte) (n c : Len) : State :=
  { withRegs k Block.zero n c with inBuf := Memory.writeBytes [] 0 bs }

/-- The state of V15, with another capacity where a vector asks for one. -/
def v15 (c : Len) : State := { withMessage keyRef [0x74, 0x65, 0x61, 0x00] 4 c with rngQueue := [0x5A, 0xC3, 0x11, 0x22] }

/-- An idle machine with these moves to come. -/
def withMoves (ms : List Move) : State := { State.reset with pending := ms }

theorem withMoves_idle (ms : List Move) : busyBit (withMoves ms).status = false := by
  show busyBit 0x00 = false
  decide

/-- A machine on which a command byte runs, with these moves to come. -/
def running (c : BitVec 8) (ms : List Move) : State :=
  { State.reset with status := 0x20, running := some c, pending := ms }

/-- What a test looks at after a command: `STATUS`, `RES_LEN` and the first `n` bytes of `OUT`. -/
def report (n : Nat) (o : Host.Outcome State Fault Refusal) : Option (BitVec 8 × Len × List Byte) :=
  (nextState o).map fun t => (t.status, t.resLen, Memory.readBytes t.outBuf 0 n)

/-- What a test looks at after a block command: `STATUS`, `RES_LEN`, `BLK` and the chaining registers. -/
def blockReport (o : Host.Outcome State Fault Refusal) : Option (BitVec 8 × Len × Block × Chain) :=
  (nextState o).map fun t => (t.status, t.resLen, t.blk, t.chain)

/-! ### Command words, written out from UNIT in bits 7:4 and FUNC in bits 3:0 (30_encoding.md R70, R71) -/

theorem test_decode_teaEnc : decodeWord 0b00000001 = .ok .teaEnc := by decide
theorem test_decode_teaDec : decodeWord 0b00000010 = .ok .teaDec := by decide
theorem test_decode_chainInit : decodeWord 0b00010000 = .ok .chainInit := by decide
theorem test_decode_chainEnc : decodeWord 0b00010001 = .ok .chainEnc := by decide
theorem test_decode_chainDec : decodeWord 0b00010010 = .ok .chainDec := by decide
theorem test_decode_msgEnc : decodeWord 0b00100000 = .ok .msgEnc := by decide
theorem test_decode_msgDec : decodeWord 0b00100001 = .ok .msgDec := by decide

/-- Every one of the 256 words is a command or refused, and 249 are refused (30_encoding.md R72). -/
theorem test_reserved_words : ((List.range 256).filter fun n => !commandDefined (BitVec.ofNat 8 n)).length = 249 := by
  decide +kernel

/-! ### Ill-formed input, one term for each check -/

theorem test_unit_0x3_refused :
    unitDefined 0x3 = false ∧ decodeWord 0x30 = .error (.reservedUnit 0x3) ∧ commandDefined 0x30 = false := by decide
theorem test_func_of_unit_0x0_refused :
    funcDefined 0x0 0x0 = false ∧ decodeWord 0x00 = .error (.reservedFunc 0x0 0x0) ∧
      decodeWord 0x03 = .error (.reservedFunc 0x0 0x3) := by decide
theorem test_func_of_unit_0x1_refused :
    funcDefined 0x1 0x3 = false ∧ decodeWord 0x13 = .error (.reservedFunc 0x1 0x3) := by decide
theorem test_func_of_unit_0x2_refused :
    funcDefined 0x2 0x2 = false ∧ decodeWord 0x22 = .error (.reservedFunc 0x2 0x2) := by decide
theorem test_no_byte_refused : decodeBytes [] = .error .noByte := by decide
theorem test_register_0x0A_refused : regNumberDefined 0x0A = false ∧ regOfNumber 0x0A = none := by decide
theorem test_cmd_not_readable : Reg.readable .cmd = false := by decide
theorem test_status_not_writable : Reg.writable .status = false ∧ Reg.writable .resLen = false := by decide
theorem test_key_takes_no_block : Reg.takes .key (.block Block.zero) = false ∧ Reg.takes .inLen (.byte 0) = false := by
  decide
theorem test_wr_status_not_valid :
    Stmt.valid (.wr .status (.byte 0)) = false ∧ Stmt.valid (.rd .cmd none) = false ∧
      Stmt.valid (.wr .blk (.key keyZero)) = false := by decide
theorem test_memory_not_canonical :
    Memory.wf [(1, 0x01), (0, 0x01)] = false ∧ Memory.wf [(0, 0x00)] = false ∧
      Memory.wf [(4294967296, 0x01)] = false := by decide +kernel
theorem test_status_not_legal :
    statusLegal { State.reset with status := 0x40 } = false ∧ statusLegal { State.reset with status := 0x16 } = false ∧
      statusLegal { State.reset with status := 0x20 } = false ∧ statusLegal (running 0x01 []) = true := by decide

/-! ### Vectors of 95_test_vectors.md -/

/-- V5: distinct bytes. -/
theorem test_v5_teaEnc :
    blockReport (exec .teaEnc (withRegs keyCount ⟨0x00, 0x01, 0x02, 0x03, 0x04, 0x05, 0x06, 0x07⟩ 0 0)) =
      some (0x10, 8, ⟨0x63, 0x28, 0xA5, 0x08, 0x96, 0xBD, 0xE3, 0xC8⟩, Chain.zero) := by decide +kernel

/-- V3: the reference key. -/
theorem test_v3_teaDec :
    blockReport (exec .teaDec (withRegs keyRef ⟨0xC9, 0xE8, 0x5B, 0x14, 0x3E, 0x18, 0x6D, 0x4C⟩ 0 0)) =
      some (0x10, 8, ⟨0x74, 0x65, 0x61, 0x00, 0x00, 0x00, 0x00, 0x00⟩, Chain.zero) := by decide +kernel

/-- V31: CHAIN_INIT from a chaining state that is not zero, with nothing written. -/
theorem test_v31_chainInit :
    blockReport (exec .chainInit { State.reset with chain := ⟨v1Out, v1Out, 5⟩ }) =
      some (0x10, 0, Block.zero, Chain.zero) := by decide +kernel

/-- V12, step 3: the next step of a chain. -/
theorem test_v12_chainEnc :
    blockReport (exec .chainEnc
      { withRegs keyZero ⟨0x01, 0x00, 0x00, 0x00, 0x00, 0x00, 0x00, 0x00⟩ 0 0 with
        chain := ⟨⟨0xD6, 0x4A, 0xDA, 0x1A, 0xE9, 0x3B, 0x4F, 0x87⟩, v1Out, 2⟩ }) =
      some (0x10, 8, ⟨0x08, 0x3D, 0x0B, 0xAD, 0x6C, 0x9D, 0xCD, 0xBF⟩,
        ⟨⟨0x08, 0x3D, 0x0B, 0xAD, 0x6C, 0x9D, 0xCD, 0xBF⟩, ⟨0xD7, 0x4A, 0xDA, 0x1A, 0xE9, 0x3B, 0x4F, 0x87⟩, 3⟩) := by
  decide +kernel

/-- V11: the block consumed goes into `PREV_OUT`. -/
theorem test_v11_chainDec :
    blockReport (exec .chainDec (withRegs keyZero v1Out 0 0)) =
      some (0x10, 8, Block.zero, ⟨v1Out, Block.zero, 1⟩) := by decide +kernel

/-- V13, step 2: no direction bit. -/
theorem test_v13_chainDec :
    blockReport (exec .chainDec { withRegs keyZero v1Out 0 0 with chain := ⟨v1Out, Block.zero, 1⟩ }) =
      some (0x10, 8, v1Out, ⟨v1Out, Block.zero, 2⟩) := by decide +kernel

/-- V15: the pinned ciphertext; `OUT[16]` keeps its value. -/
theorem test_v15_msgEnc :
    report 17 (exec .msgEnc { v15 64 with outBuf := [(16, 0xEE)] }) = some (0x10, 16, v15Out ++ [0xEE]) := by
  decide +kernel

/-- V22, L = 13: two chained blocks of plaintext and N = 1. -/
theorem test_v22_msgEnc :
    report 24 (exec .msgEnc
      { withMessage keyRef [0x41, 0x42, 0x43, 0x44, 0x45, 0x46, 0x47, 0x48, 0x49, 0x4A, 0x4B, 0x4C, 0x4D] 13 24 with
        rngQueue := [0x5A, 0xC3, 0x11, 0x22] }) =
      some (0x10, 24,
        [0x21, 0x3B, 0xE0, 0xAA, 0x12, 0xA7, 0x63, 0x26, 0x73, 0xA0, 0x3F, 0x17, 0x11, 0x29, 0x6F, 0xEB, 0x74, 0xB7,
         0x16, 0x22, 0x73, 0x5A, 0x31, 0xC0]) := by decide +kernel

/-- V16: the pinned plaintext; `OUT[4]` keeps its value. -/
theorem test_v16_msgDec :
    report 5 (exec .msgDec { withMessage keyRef v15Out 16 64 with outBuf := [(4, 0xEE)] }) =
      some (0x10, 4, [0x74, 0x65, 0x61, 0x00, 0xEE]) := by decide +kernel

/-- V28: a wrong key with a short buffer is reported as `BUFFER_TOO_SMALL`. -/
theorem test_v28_msgDec :
    report 5 (exec .msgDec (withMessage keyZero v15Out 16 4)) = some (0x13, 5, [0x00, 0x00, 0x00, 0x00, 0x00]) := by
  decide +kernel

/-- V30: the normalizer. -/
theorem test_v30_normalizer :
    wire32ToWord 0x31 0x32 0x33 0x34 = 0x31323334 ∧ wordToWire32 0x9E3779B9 = (0x9E, 0x37, 0x79, 0xB9) ∧
      wire16ToHalf 0x12 0x34 = 0x1234 ∧ halfToWire16 0x1234 = (0x12, 0x34) ∧
      keyWords keyRef = ⟨0x31323334, 0x35363738, 0x39616263, 0x64656600⟩ ∧
      wordsBlock 0xA889F798 0x182D8083 = v1Out := by decide +kernel

/-- V33: after MSG_ENC, a message that fails among them, a block command and a host read of `BLK` fault; written again,
`BLK` is read. -/
theorem test_v33_blk_after_message :
    (nextState (exec .msgEnc (withRegs keyRef v1Out 0 0))).map (fun t => (noValue t .blk, t.status)) =
        some (true, 0x11) ∧
      exec .teaEnc afterMessage = .fault (.unwrittenRegister .blk) ∧
      step { afterMessage with pending := [.host (.readReg 0x03)] } = .fault (.unwrittenRegister .blk) ∧
      blockReport (exec .teaEnc (writeBlk Block.zero { afterMessage with key := keyZero })) =
        some (0x10, 8, v1Out, Chain.zero) := by
  exact ⟨by decide +kernel, rfl, rfl, by decide +kernel⟩

/-- V34: a reserved word, from the host's write to its end, in two steps. -/
theorem test_v34_reserved :
    report 0 (Host.Core.run core 2 (withMoves [.host (.writeReg 0x00 (.byte 0x30)), .core])) = some (0x15, 0, []) := by
  decide +kernel

/-- V35: right after reset CHAIN_INIT is the first command and succeeds, and TEA_ENC reaches two unwritten registers. -/
theorem test_v35_first_command :
    report 0 (step (State.reset.withFetchWord 8 0x10)) = some (0x10, 0, []) ∧
      unwrittenReads .teaEnc State.reset = [.blk, .key] := by decide +kernel

/-- The `CMD` bytes of a script in their order, a pseudo-command among them (30_encoding.md R77, R78). -/
theorem test_script_encoding :
    scriptEncoding [.wr .key (.key keyRef), .run .chainInit, .wr .cmd (.byte 0x11), .wait, .encrypt [0x74] 64,
      .expectErr 0x0] = [0x10, 0x11, 0x20] := by decide +kernel

/-! ### Witnesses: for every statement with hypotheses, states and operands that meet them

Each theorem names the statement after `witness_`; a statement of several clauses has a witness for each. -/

theorem witness_OpcodeMapDecodes : ∃ w i, decodeWord w = .ok i := ⟨0x21, .msgDec, by decide⟩

theorem witness_DecodeInvertsEncode : ∃ w i rest, decodeBytes (w :: rest) = .ok (i, rest) :=
  ⟨0x21, .msgDec, [0xFF], by decide⟩

/-- One word of each reserved range, at its ends, with a later command. -/
theorem witness_ReservedCommandOnlyReports (c : BitVec 8) (h : c ∈ [0x00#8, 0x03#8, 0x0F#8, 0x13#8, 0x1F#8, 0x22#8, 0xFF#8]) :
    ∃ (s : State) (after later : List Move),
      (c.toNat = 0x00 ∨ (0x03 ≤ c.toNat ∧ c.toNat ≤ 0x0F) ∨ (0x13 ≤ c.toNat ∧ c.toNat ≤ 0x1F) ∨ 0x22 ≤ c.toNat) ∧
        busyBit s.status = false ∧ s.pending = .host (.writeReg 0x00 (.byte c)) :: .core :: after ∧
        after = .host (.writeReg 0x00 (.byte 0x01)) :: later := by
  refine ⟨withMoves [.host (.writeReg 0x00 (.byte c)), .core, .host (.writeReg 0x00 (.byte 0x01))], _, [], ?_, withMoves_idle _,
    rfl, rfl⟩
  revert c; decide +kernel

theorem witness_CoreStepRunsDecodedCommand (ms : List Move) (_ : ms ∈ [[.core], [.wait], []]) :
    ∃ (s : State) (i : Instr), s.running = some 0x11 ∧ decodeWord 0x11 = .ok i ∧ s.pending = ms :=
  ⟨running 0x11 ms, .chainEnc, rfl, rfl, rfl⟩

theorem witness_CommandWriteStartsCommand :
    ∃ s : State, busyBit s.status = false ∧ s.pending = .host (.writeReg 0x00 (.byte 0xFF)) :: [] :=
  ⟨withMoves [.host (.writeReg 0x00 (.byte 0xFF))], rfl, rfl⟩

/-- A block command on written registers, and one on a `BLK` without a value. -/
theorem witness_EveryCommandEndsInOneStep :
    (withRegs keyRef v1Out 0 0).written.blk ≠ .nothing ∧ afterMessage.written.blk = .nothing ∧
      Instr.chainDec ≠ .chainInit ∧ Instr.chainDec ≠ .msgEnc ∧ Instr.chainDec ≠ .msgDec :=
  ⟨nofun, rfl, nofun, nofun, nofun⟩

/-- Every command completes; each message command succeeds, and finds `OUT` too small; one fails otherwise (V15, V16,
V19, V28). -/
theorem witness_StatusCodesOfEachCommand :
    (∀ i : Instr, ∃ t, exec i (withRegs keyRef v1Out 0 0) = .next t) ∧
      (∃ t, exec .msgEnc (v15 64) = .next t ∧ errField t.status = 0x0) ∧
      (∃ t, exec .msgEnc (v15 15) = .next t ∧ errField t.status = 0x3) ∧
      (∃ t, exec .msgDec (withMessage keyRef v15Out 16 64) = .next t ∧ errField t.status = 0x0) ∧
      (∃ t, exec .msgDec (withMessage keyZero v15Out 16 4) = .next t ∧ errField t.status = 0x3) ∧
      ∃ t, exec .msgDec State.reset = .next t ∧ errField t.status ≠ 0x0 ∧ errField t.status ≠ 0x3 :=
  ⟨fun i => by cases i <;> exact ⟨_, rfl⟩, ⟨_, rfl, by decide +kernel⟩, ⟨_, rfl, by decide +kernel⟩,
    ⟨_, rfl, by decide +kernel⟩, ⟨_, rfl, by decide +kernel⟩, _, rfl, by decide +kernel, by decide +kernel⟩

/-- The words of the rounds of an encryption. -/
def encTrace (B : Block) (K : Key) : Nat → Word × Word
  | 0 => blockWords B
  | r + 1 =>
    let p := encTrace B K r
    let y := p.1 + (((p.2 <<< 4) + (keyWords K).a) ^^^ (p.2 + BitVec.ofNat 32 ((r + 1) * 0x9E3779B9)) ^^^
      ((p.2 >>> 5) + (keyWords K).b))
    (y, p.2 + (((y <<< 4) + (keyWords K).c) ^^^ (y + BitVec.ofNat 32 ((r + 1) * 0x9E3779B9)) ^^^
      ((y >>> 5) + (keyWords K).d)))

/-- Sequences that follow the rounds exist, and the first of V8 are V8's. -/
theorem witness_EncryptBlockIsSixteenRounds :
    ∃ (B : Block) (K : Key) (y z : Nat → Word), (y 0, z 0) = blockWords B ∧
      (∀ r < 16,
        y (r + 1) = y r + ((((z r) <<< 4) + (keyWords K).a) ^^^ (z r + BitVec.ofNat 32 ((r + 1) * 0x9E3779B9)) ^^^
            (((z r) >>> 5) + (keyWords K).b)) ∧
          z (r + 1) = z r + ((((y (r + 1)) <<< 4) + (keyWords K).c) ^^^
            (y (r + 1) + BitVec.ofNat 32 ((r + 1) * 0x9E3779B9)) ^^^ (((y (r + 1)) >>> 5) + (keyWords K).d))) ∧
      (y 1, z 1) = (0x9E3779B9, 0xDBE8D32F) :=
  ⟨Block.zero, keyZero, fun r => (encTrace Block.zero keyZero r).1, fun r => (encTrace Block.zero keyZero r).2,
    rfl, fun _ _ => ⟨rfl, rfl⟩, by decide +kernel⟩

/-- The words of the rounds of a decryption. -/
def decTrace (B : Block) (K : Key) : Nat → Word × Word
  | 0 => blockWords B
  | r + 1 =>
    let p := decTrace B K r
    let z := p.2 - (((p.1 <<< 4) + (keyWords K).c) ^^^ (p.1 + BitVec.ofNat 32 ((16 - r) * 0x9E3779B9)) ^^^
      ((p.1 >>> 5) + (keyWords K).d))
    (p.1 - (((z <<< 4) + (keyWords K).a) ^^^ (z + BitVec.ofNat 32 ((16 - r) * 0x9E3779B9)) ^^^
      ((z >>> 5) + (keyWords K).b)), z)

/-- Sequences that follow the rounds exist, and the first over V8's output are V8's. -/
theorem witness_DecryptBlockIsSixteenRounds :
    ∃ (B : Block) (K : Key) (y z : Nat → Word), (y 0, z 0) = blockWords B ∧
      (∀ r < 16,
        z (r + 1) = z r - ((((y r) <<< 4) + (keyWords K).c) ^^^ (y r + BitVec.ofNat 32 ((16 - r) * 0x9E3779B9)) ^^^
            (((y r) >>> 5) + (keyWords K).d)) ∧
          y (r + 1) = y r - ((((z (r + 1)) <<< 4) + (keyWords K).a) ^^^
            (z (r + 1) + BitVec.ofNat 32 ((16 - r) * 0x9E3779B9)) ^^^ (((z (r + 1)) >>> 5) + (keyWords K).b))) ∧
      (y 1, z 1) = (0x0C34A0C4, 0x1652DB6F) :=
  ⟨v1Out, keyZero, fun r => (decTrace v1Out keyZero r).1, fun r => (decTrace v1Out keyZero r).2,
    rfl, fun _ _ => ⟨rfl, rfl⟩, by decide +kernel⟩

/-- A `BLK` that holds a value, and one that holds none. -/
theorem witness_TeaEncEncryptsBlk :
    (withRegs keyRef v1Out 0 0).written.blk ≠ .nothing ∧ afterMessage.written.blk = .nothing := ⟨nofun, rfl⟩

theorem witness_TeaDecDecryptsBlk :
    (withRegs keyRef v1Out 0 0).written.blk ≠ .nothing ∧ afterMessage.written.blk = .nothing := ⟨nofun, rfl⟩

theorem witness_TeaDecUndoesTeaEnc : (withRegs keyRef v1Out 0 0).written.blk ≠ .nothing := nofun

/-- V12, step 2; and a `BLK` that holds no value. -/
theorem witness_ChainEncStepsChain :
    afterMessage.written.blk = .nothing ∧ ∃ (s : State) (M E O : Block),
      s.written.blk ≠ .nothing ∧ M = xor8 s.blk s.chain.prevOut ∧ E = encryptBlock M s.key ∧ O = xor8 E s.chain.prevMix ∧
        O = ⟨0xD6, 0x4A, 0xDA, 0x1A, 0xE9, 0x3B, 0x4F, 0x87⟩ :=
  ⟨rfl, { withRegs keyZero Block.zero 0 0 with chain := ⟨v1Out, Block.zero, 1⟩ }, v1Out,
    ⟨0xD6, 0x4A, 0xDA, 0x1A, 0xE9, 0x3B, 0x4F, 0x87⟩, _, by decide, by decide +kernel, by decide +kernel, by decide +kernel, rfl⟩

/-- V11; and a `BLK` that holds no value. -/
theorem witness_ChainDecStepsChain :
    afterMessage.written.blk = .nothing ∧ ∃ (s : State) (E M P : Block),
      s.written.blk ≠ .nothing ∧ E = xor8 s.blk s.chain.prevMix ∧ M = decryptBlock E s.key ∧ P = xor8 M s.chain.prevOut ∧ P = Block.zero :=
  ⟨rfl, withRegs keyZero v1Out 0 0, v1Out, Block.zero, _, by decide, by decide +kernel, by decide +kernel, by decide +kernel, rfl⟩

/-- Written registers, as the spec's model needs them. -/
theorem witness_FirstBlockIsDirect :
    ∃ s : State, s.written = ⟨true, .value, true, true⟩ ∧ s.written.blk ≠ .nothing ∧
      s.chain = ⟨Block.zero, Block.zero, 0⟩ :=
  ⟨withRegs keyRef v1Out 0 0, rfl, by decide, rfl⟩

/-- Equal keys in states that differ, and three blocks (V12). -/
theorem witness_ChainDecUndoesChainEnc :
    ∃ (s s' : State) (Ps : List Block), s'.key = s.key ∧ s' ≠ s ∧ Ps.length = 3 :=
  ⟨withRegs keyZero v1Out 0 0, State.reset, [Block.zero, Block.zero, v1Out], by decide, by decide, rfl⟩

/-- Both kinds of step from a counter at its top, and a mixture of both after CHAIN_INIT. -/
theorem witness_BlockCounterCountsSteps (i : Instr) (_ : i = .chainEnc ∨ i = .chainDec) :
    (∃ s s1, exec .chainInit s = .next s1) ∧
      (∀ p ∈ [(Instr.chainEnc, v1Out), (.chainDec, Block.zero), (.chainEnc, v1Out)], p.1 = .chainEnc ∨ p.1 = .chainDec) ∧
      ∃ s t, s.chain.blkCount = 0xFFFFFFFF ∧ s.written.blk ≠ .nothing ∧ exec i s = .next t :=
  ⟨⟨State.reset, _, rfl⟩, by decide, { withRegs keyRef v1Out 0 0 with chain := ⟨v1Out, v1Out, 0xFFFFFFFF⟩ }, by
    cases i <;> exact ⟨_, rfl, by decide, rfl⟩⟩

theorem witness_FillCountIsLeast : (4 + 10 + 2) % 8 = 0 ∧ (4 + 10 + 10) % 8 = 0 := by decide

theorem witness_TotalLengthBounds : ∃ (L : Nat) (pt : List Byte), 1 ≤ L ∧ pt.length = L := ⟨1, [0x00], by decide, rfl⟩

/-- N = 0 with lengths 6 and 14 that share five bytes (V22), and N = 7, where no plaintext byte is shared. -/
theorem witness_LengthCornerCases :
    ∀ p ∈ [((0 : Nat), [(0x41 : Byte), 0x42, 0x43, 0x44, 0x45, 0x46],
        [(0x41 : Byte), 0x42, 0x43, 0x44, 0x45, 0x00, 0, 0, 0, 0, 0, 0, 0, 0]),
        (7, [0x41, 0x42, 0x43, 0x44, 0x45, 0x46, 0x47], [0, 0, 0, 0, 0, 0, 0])],
      fillCountOf p.2.1.length = p.1 ∧ fillCountOf p.2.2.length = p.1 ∧ p.2.2.take (5 - p.1) = p.2.1.take (5 - p.1) ∧
        p.2.2 ≠ p.2.1 := by decide +kernel

/-- Both ends of the range of N, with an offset of every source. -/
theorem witness_LayoutSources (n : Nat) (_ : n = 1 ∨ n = 7) :
    ∃ (j : Nat) (pt : List Byte), n ≤ 7 ∧ 1 ≤ j ∧ j ≤ n ∧ 0 < pt.length ∧ 6 < 7 :=
  ⟨n, [0x41], by omega, by omega, le_refl n, by decide, by decide⟩

/-- One block from the zero state. -/
theorem witness_EncryptStreamFollowsChain :
    ∃ (K : Key) (Ps : List Block) (M O : Nat → Block), Ps.length = 1 ∧ M 0 = Block.zero ∧ O 0 = Block.zero ∧
      ∀ k (h : k < Ps.length), M (k + 1) = xor8 Ps[k] (O k) ∧ O (k + 1) = xor8 (encryptBlock (M (k + 1)) K) (M k) :=
  ⟨keyZero, [v1Out], fun | 0 => Block.zero | _ => v1Out,
    fun | 0 => Block.zero | _ => xor8 (encryptBlock v1Out keyZero) Block.zero, rfl, rfl, rfl, fun k h => by
      obtain rfl : k = 0 := by simpa using h
      exact ⟨(xor8_zero v1Out).symm, rfl⟩⟩

/-- One block from the zero state. -/
theorem witness_DecryptStreamFollowsChain :
    ∃ (K : Key) (Os : List Block) (M O : Nat → Block), Os.length = 1 ∧ M 0 = Block.zero ∧ O 0 = Block.zero ∧
      ∀ k (h : k < Os.length), O (k + 1) = Os[k] ∧ M (k + 1) = decryptBlock (xor8 Os[k] (M k)) K :=
  ⟨keyZero, [v1Out], fun | 0 => Block.zero | _ => decryptBlock (xor8 v1Out Block.zero) keyZero,
    fun | 0 => Block.zero | _ => v1Out, rfl, rfl, rfl, fun k h => by
      obtain rfl : k = 0 := by simpa using h
      exact ⟨rfl, rfl⟩⟩

/-- V15 with a capacity of exactly T, and the longest plaintext with a capacity of exactly its T. -/
theorem witness_MsgEncEncryptsMessage :
    (1 ≤ (v15 16).inLen.toNat ∧ (v15 16).inLen.toNat ≤ 0xFFFFFFEE ∧
      totalLength (v15 16).inLen.toNat ≤ (v15 16).outCap.toNat) ∧
      ∃ s : State, s.inLen.toNat = 0xFFFFFFEE ∧ totalLength s.inLen.toNat ≤ s.outCap.toNat :=
  ⟨by decide +kernel, withRegs keyRef v1Out 0xFFFFFFEE 0xFFFFFFF8, by decide +kernel, by decide +kernel⟩

/-- The empty plaintext, the shortest that is too long, and a capacity of T - 1 at both ends of the lengths (V19, V20). -/
theorem witness_MsgEncFailuresInOrder :
    (withRegs keyRef v1Out 0 0).inLen.toNat = 0 ∧ 0xFFFFFFEE < (withRegs keyRef v1Out 0xFFFFFFEF 0).inLen.toNat ∧
      (v15 15).outCap.toNat < totalLength (v15 15).inLen.toNat ∧
      (withRegs keyRef v1Out 1 15).outCap.toNat < totalLength (withRegs keyRef v1Out 1 15).inLen.toNat ∧
      (withRegs keyRef v1Out 0xFFFFFFEE 0xFFFFFFF7).outCap.toNat <
        totalLength (withRegs keyRef v1Out 0xFFFFFFEE 0xFFFFFFF7).inLen.toNat := by decide +kernel

/-- A command that draws, one that fails and one that never draws; settled bytes, and an `RNG` line. -/
theorem witness_OnlyMsgEncDraws :
    (∃ t, exec .msgEnc (v15 16) = .next t ∧ errField t.status = 0x0) ∧
      (∃ t, exec .msgEnc (v15 15) = .next t ∧ errField t.status ≠ 0x0) ∧ (∃ t, exec .teaEnc (v15 16) = .next t) ∧
      (v15 16).rngQueue = 0x5A :: 0xC3 :: 0x11 :: 0x22 :: [] ∧ (withMoves [.rng [0x5A]]).pending = .rng [0x5A] :: [] :=
  ⟨⟨_, rfl, by decide +kernel⟩, ⟨_, rfl, by decide +kernel⟩, ⟨_, rfl⟩, rfl, rfl⟩

/-- Lengths on both sides of each bound (V23). -/
theorem witness_MsgDecRejectsLength :
    ∀ s ∈ [0#32, 8#32, 15#32, 17#32, 23#32].map fun n => withRegs keyRef v1Out n 64,
      s.inLen.toNat < 16 ∨ s.inLen.toNat % 8 ≠ 0 := by
  decide +kernel

/-- Whether a decrypt state passes the length and fill checks, as a Bool for evaluation. -/
def fillOk (s : State) : Bool :=
  (List.range (recoveredN s + 1)).all fun j =>
    decide (j < 2) || (blockToBytes (firstRecovered s))[j]? == (blockToBytes (firstRecovered s))[1]?

theorem fillAgrees_of_fillOk {s : State} (h : fillOk s = true) : fillAgrees s := by
  intro j h2 hN
  have := List.all_eq_true.mp h j (List.mem_range.mpr (by omega))
  simpa [show ¬ j < 2 by omega] using this

/-- V26 (b): N = 2 and the one comparison there is fails. -/
def v26b : State :=
  withMessage keyRef
    [0x2E, 0xE4, 0xF0, 0xF2, 0x28, 0x69, 0x22, 0x6D, 0xA4, 0xEB, 0x7C, 0x93, 0x4D, 0x58, 0x26, 0xFF] 16 64

theorem witness_MsgDecChecksFill :
    16 ≤ v26b.inLen.toNat ∧ v26b.inLen.toNat % 8 = 0 ∧ recoveredN v26b = 2 ∧ ¬ fillAgrees v26b := by
  refine ⟨by decide, by decide, by decide +kernel, fun h => ?_⟩
  exact absurd (h 2 (le_refl 2) (by decide +kernel)) (by decide +kernel)

/-- V25: C = 16 and N = 7, under each parameter. -/
def v25 (o : OverrunStatus) : State :=
  { withMessage keyRef
      [0xB2, 0x7C, 0xA3, 0xAA, 0x7A, 0xBB, 0x04, 0x39, 0xE6, 0x74, 0x7A, 0x51, 0x66, 0xCD, 0x82, 0x6C] 16 64 with
    cfg := ⟨o⟩ }

theorem witness_MsgDecChecksOverrun (o : OverrunStatus) :
    16 ≤ (v25 o).inLen.toNat ∧ (v25 o).inLen.toNat % 8 = 0 ∧ fillAgrees (v25 o) ∧
      (v25 o).inLen.toNat < recoveredN (v25 o) + 10 ∧ (v25 o).cfg.overrun = o ∧ fillCountOf 7 = 7 := by
  have h : recoveredN (v25 o) = 7 ∧ fillOk (v25 o) = true := by cases o <;> decide +kernel
  exact ⟨by cases o <;> decide, by cases o <;> decide, fillAgrees_of_fillOk h.2, by rw [h.1]; cases o <;> decide, rfl, rfl⟩

/-- V28: a capacity of Lout - 1. -/
theorem witness_MsgDecChecksCapacity :
    ∃ s : State, 16 ≤ s.inLen.toNat ∧ s.inLen.toNat % 8 = 0 ∧ fillAgrees s ∧ recoveredN s + 10 ≤ s.inLen.toNat ∧
      s.outCap.toNat < s.inLen.toNat - recoveredN s - 10 :=
  ⟨withMessage keyZero v15Out 16 4, by decide, by decide, fillAgrees_of_fillOk (by decide +kernel), by decide +kernel,
    by decide +kernel⟩

/-- V26 (d): the last trailer byte is 01, with a capacity of exactly Lout. -/
theorem witness_MsgDecChecksTrailer :
    ∃ (s : State) (n : Nat), 16 ≤ s.inLen.toNat ∧ s.inLen.toNat % 8 = 0 ∧ fillAgrees s ∧
      recoveredN s + 10 ≤ s.inLen.toNat ∧ n = s.inLen.toNat - recoveredN s - 10 ∧ n = s.outCap.toNat ∧
      (recoveredLayout s)[s.inLen.toNat - 1]? = some 0x01 :=
  ⟨withMessage keyRef
    [0x2A, 0x65, 0xC2, 0xEE, 0x9F, 0x88, 0x4B, 0xE2, 0x59, 0x1E, 0x42, 0xE8, 0x0D, 0xF4, 0x33, 0x99] 16 5, 5,
    by decide, by decide, fillAgrees_of_fillOk (by decide +kernel), by decide +kernel, by decide +kernel, by decide,
    by decide +kernel⟩

/-- V16 with a capacity of exactly Lout. -/
theorem witness_MsgDecRecoversPlaintext :
    ∃ (s : State) (n : Nat), 16 ≤ s.inLen.toNat ∧ s.inLen.toNat % 8 = 0 ∧ fillAgrees s ∧
      recoveredN s + 10 ≤ s.inLen.toNat ∧ n = s.inLen.toNat - recoveredN s - 10 ∧ n = s.outCap.toNat ∧
      ∀ j, s.inLen.toNat - 7 ≤ j → j < s.inLen.toNat → (recoveredLayout s)[j]? = some 0x00 := by
  refine ⟨withMessage keyRef v15Out 16 4, 4, by decide, by decide, fillAgrees_of_fillOk (by decide +kernel),
    by decide +kernel, by decide +kernel, by decide, fun j h1 h2 => ?_⟩
  have h : ∀ j < 16, 9 ≤ j → (recoveredLayout (withMessage keyRef v15Out 16 4))[j]? = some 0x00 := by decide +kernel
  exact h j h2 h1

/-- V24, with a capacity of 0. -/
theorem witness_MsgDecAcceptsZeroLength :
    ∃ s : State, s.outCap = 0 ∧ s.inLen.toNat = 16 ∧ recoveredN s = 6 ∧ fillAgrees s ∧
      ∀ j, 9 ≤ j → j < 16 → (recoveredLayout s)[j]? = some 0x00 := by
  refine ⟨withMessage keyRef
    [0x05, 0x09, 0xBF, 0xE9, 0x8A, 0xCF, 0x13, 0x2B, 0x5A, 0x3C, 0xAD, 0xF8, 0xB0, 0xEC, 0x99, 0xA5] 16 0, rfl, by decide,
    by decide +kernel, fillAgrees_of_fillOk (by decide +kernel), fun j h1 h2 => ?_⟩
  have h : ∀ j < 16, 9 ≤ j → (recoveredLayout (withMessage keyRef
    [0x05, 0x09, 0xBF, 0xE9, 0x8A, 0xCF, 0x13, 0x2B, 0x5A, 0x3C, 0xAD, 0xF8, 0xB0, 0xEC, 0x99, 0xA5] 16 0))[j]? =
      some 0x00 := by decide +kernel
  exact h j h2 h1

/-- V15 and V16: the ciphertext of one state is in `IN` of the other, with capacities of exactly T and L. -/
theorem witness_MessageRoundTrip :
    ∃ s t u : State, 1 ≤ s.inLen.toNat ∧ s.inLen.toNat ≤ 0xFFFFFFEE ∧ totalLength s.inLen.toNat ≤ s.outCap.toNat ∧
      exec .msgEnc s = .next t ∧ u.key = s.key ∧ u.inLen = t.resLen ∧ s.inLen.toNat ≤ u.outCap.toNat ∧
      ∀ a, a < totalLength s.inLen.toNat → Memory.read u.inBuf a = Memory.read t.outBuf a := by
  refine ⟨v15 16, _, withMessage keyRef v15Out 16 4, by decide, by decide, by decide +kernel, rfl, rfl,
    by decide +kernel, by decide, fun a ha => ?_⟩
  have h : ∀ a < 16, Memory.read (withMessage keyRef v15Out 16 4).inBuf a =
      Memory.read (discardChain (messageEnc (v15 16))).outBuf a := by decide +kernel
  have e : totalLength (v15 16).inLen.toNat = 16 := by decide +kernel
  exact h a (by rwa [e] at ha)

/-- Two states that differ outside what the rule names, for each command. -/
theorem witness_EqualInputsReportEqually :
    ∃ s s' t t' e e' : State, s'.key = s.key ∧ s'.inLen = s.inLen ∧ s'.outCap = s.outCap ∧ s'.cfg = s.cfg ∧
      (∀ a, a < s.inLen.toNat → Memory.read s'.inBuf a = Memory.read s.inBuf a) ∧ exec .msgDec s = .next t ∧
      exec .msgDec s' = .next t' ∧ exec .msgEnc s = .next e ∧ exec .msgEnc s' = .next e' ∧
      (drawFour s').1 = (drawFour s).1 ∧ e.status = 0x10 ∧ s'.blk ≠ s.blk :=
  ⟨v15 16, { v15 16 with blk := v1Out }, _, _, _, _, rfl, rfl, rfl, rfl, fun _ _ => rfl, rfl, rfl, rfl, rfl, rfl,
    by decide +kernel, by decide +kernel⟩

theorem witness_MessagesIgnoreOldChain : ∃ i : Instr, i = .msgEnc ∨ i = .msgDec := ⟨.msgDec, .inr rfl⟩

theorem witness_MessagesDiscardChain : ∃ i : Instr, i = .msgEnc ∨ i = .msgDec := ⟨.msgEnc, .inl rfl⟩

/-- A command that writes `OUT` up to `OUT_CAP`, and another `IN` that agrees below `IN_LEN` only. -/
theorem witness_CommandsStayInBuffers :
    ∃ (s t : State) (m : Memory), exec .msgEnc s = .next t ∧ t.outBuf ≠ s.outBuf ∧
      (∀ a, a < s.inLen.toNat → Memory.read m a = Memory.read s.inBuf a) ∧ Memory.read m 4 ≠ Memory.read s.inBuf 4 := by
  refine ⟨v15 16, _, Memory.write (v15 16).inBuf 4 0xFF, rfl, by decide +kernel, fun a ha => ?_, by decide +kernel⟩
  have h : ∀ a < 4, Memory.read (Memory.write (v15 16).inBuf 4 0xFF) a = Memory.read (v15 16).inBuf a := by
    decide +kernel
  exact h a ha

theorem witness_OnlyMessagesAccessBuffers :
    ∃ i : Instr, i ≠ .msgEnc ∧ i ≠ .msgDec ∧ i ≠ .chainInit ∧ (withRegs keyRef v1Out 0 0).written.blk ≠ .nothing ∧
      afterMessage.written.blk = .nothing := ⟨.chainEnc, nofun, nofun, nofun, nofun, rfl⟩

/-- Windows that end at the last offset and one past it, for each of the four accesses. -/
theorem witness_HostMovesBufferBytes :
    busyBit State.reset.status = false ∧ 4294967295 + [(0x01 : Byte)].length ≤ 2 ^ 32 ∧ 4294967295 + 1 ≤ 2 ^ 32 ∧
      2 ^ 32 < 4294967295 + 2 ∧ 2 ^ 32 < 4294967295 + [(0x01 : Byte), 0x02].length ∧
      ∀ a ∈ [HostAction.writeIn 4294967295 [0x01], .writeOut 4294967295 [0x01], .readIn 4294967295 1,
        .readOut 4294967295 1, .readIn 4294967295 2, .readOut 4294967295 2, .writeIn 4294967295 [0x01, 0x02],
        .writeOut 4294967295 [0x01, 0x02]],
        ∃ s : State, busyBit s.status = false ∧ s.pending = .host a :: [] :=
  ⟨by decide, by decide, by decide, by decide, by decide, fun a _ => ⟨withMoves [.host a], withMoves_idle _, rfl⟩⟩

/-- A second `CMD` write while busy, and a read of `STATUS`. -/
theorem witness_BusyCoreRefusesAccess :
    (∃ s : State, busyBit s.status = true ∧ s.pending = .host (.writeReg 0x00 (.byte 0x01)) :: [] ∧
      HostAction.writeReg 0x00 (.byte 0x01) ≠ .readReg 0x01) ∧
      ∃ s : State, busyBit s.status = true ∧ s.pending = .host (.readReg 0x01) :: [] :=
  ⟨⟨running 0x20 [.host (.writeReg 0x00 (.byte 0x01))], rfl, rfl, by decide⟩, running 0x20 [.host (.readReg 0x01)], rfl, rfl⟩

/-- The first and the last reserved number, and one register of each other kind. -/
theorem witness_ForbiddenAccessesRefused :
    0x0A ≤ (0x0A#8).toNat ∧ 0x0A ≤ (0xFF#8).toNat ∧ 0x09#8 = numberOfReg .resLen ∧ Reg.writable .resLen = false ∧
      0x02#8 = numberOfReg .key ∧ Reg.writable .key = true ∧ Reg.takes .key (.len 0) = false ∧
      ∀ a : HostAction, ∃ s : State, busyBit s.status = false ∧ s.pending = .host a :: [] :=
  ⟨by decide, by decide, rfl, rfl, rfl, rfl, rfl, fun a => ⟨withMoves [.host a], withMoves_idle _, rfl⟩⟩

theorem witness_HostWritesOneRegister (no : BitVec 8) (v : RegValue) :
    ∃ s : State, busyBit s.status = false ∧ s.pending = .host (.writeReg no v) :: [] :=
  ⟨withMoves [.host (.writeReg no v)], withMoves_idle _, rfl⟩

/-- A read of a `BLK` without a value. -/
theorem witness_HostReadsAnswerRegisters_fault :
    ∃ s : State, busyBit s.status = false ∧ s.pending = .host (.readReg 0x03) :: [] ∧ s.written.blk = .nothing ∧
      (0x03#8, RegValue.block s.blk) ∈ [(0x03#8, RegValue.block s.blk)] :=
  ⟨{ afterMessage with pending := [.host (.readReg 0x03)] }, withMoves_idle [], rfl, rfl, by simp⟩

/-- Each of the nine registers. -/
theorem witness_HostReadsAnswerRegisters (no : BitVec 8) (v : RegValue)
    (h : (no, v) ∈ [(0x01#8, RegValue.byte 0x00), (0x02#8, .key keyRef), (0x03#8, .block v1Out),
      (0x04#8, .block Block.zero), (0x05#8, .block Block.zero), (0x06#8, .len 0), (0x07#8, .len 4), (0x08#8, .len 16),
      (0x09#8, .len 0)]) :
    ∃ s : State, busyBit s.status = false ∧
      (no, v) ∈ [(0x01#8, RegValue.byte s.status), (0x02#8, .key s.key), (0x03#8, .block s.blk),
        (0x04#8, .block s.chain.prevOut), (0x05#8, .block s.chain.prevMix), (0x06#8, .len s.chain.blkCount),
        (0x07#8, .len s.inLen), (0x08#8, .len s.outCap), (0x09#8, .len s.resLen)] ∧
      s.pending = .host (.readReg no) :: [] ∧ s.written.blk ≠ .nothing :=
  ⟨{ withRegs keyRef v1Out 4 16 with pending := [.host (.readReg no)] }, withMoves_idle [], h, rfl, by
    show BlkContent.value ≠ .nothing
    decide⟩

/-- A step that changes each of the three registers by the host's write, and one that changes them all by reset. -/
theorem witness_OnlyHostChangesInputs :
    (∃ t, step (withMoves [.host (.writeReg 0x02 (.key keyRef))]) = .next t ∧ t.key ≠ Key.zero) ∧
      (∃ t, step (withMoves [.host (.writeReg 0x07 (.len 4))]) = .next t ∧ t.inLen ≠ 0) ∧
      (∃ t, step (withMoves [.host (.writeReg 0x08 (.len 4))]) = .next t ∧ t.outCap ≠ 0) ∧
      ∃ t, step { v15 16 with pending := [.reset] } = .next t ∧ t.key ≠ keyRef ∧ t.inLen ≠ 4 ∧ t.outCap ≠ 16 :=
  ⟨⟨_, rfl, by decide +kernel⟩, ⟨_, rfl, by decide +kernel⟩, ⟨_, rfl, by decide +kernel⟩, _, rfl, by decide +kernel⟩

theorem witness_IdleMachineKeepsState :
    State.reset.running = none ∧ State.reset.pending = [] ∧ (withMoves [.core]).pending = .core :: [] := ⟨rfl, rfl, rfl⟩

/-- A block command on a `BLK` that holds a value, and a message command on one that holds none. -/
theorem witness_WaitEndsEveryCommand (c : BitVec 8) :
    (∃ s : State, busyBit s.status = false ∧ s.written.blk ≠ .nothing ∧
      s.pending = .host (.writeReg 0x00 (.byte c)) :: .wait :: []) ∧
      ∃ s : State, busyBit s.status = false ∧ s.written.blk = .nothing ∧
        (0x21#8) ∉ [0x01#8, 0x02#8, 0x11#8, 0x12#8] ∧ s.pending = .host (.writeReg 0x00 (.byte 0x21)) :: .wait :: [] :=
  ⟨⟨{ withRegs keyRef v1Out 0 0 with pending := [.host (.writeReg 0x00 (.byte c)), .wait] }, withMoves_idle [], by
      show BlkContent.value ≠ .nothing
      decide, rfl⟩,
    { afterMessage with pending := [.host (.writeReg 0x00 (.byte 0x21)), .wait] }, withMoves_idle [], rfl, by decide, rfl⟩

/-- Reset with nothing running, with a block command running, and with MSG_ENC running that could have written 16
bytes. -/
theorem witness_ResetAbandonsCommand :
    (withMoves [.reset]).pending = .reset :: [] ∧ (running 0x01 [.reset]).pending = .reset :: [] ∧
      (∀ c i, (running 0x01 [.reset]).running = some c → decodeWord c = .ok i → i ≠ .msgEnc ∧ i ≠ .msgDec) ∧
      ∃ s : State, s.pending = .reset :: [] ∧ s.running = some 0x20 ∧ decodeWord 0x20 = .ok .msgEnc ∧
        outReach .msgEnc s = 16 := by
  refine ⟨rfl, rfl, fun c i hc hi => ?_, { v15 16 with running := some 0x20, pending := [.reset] }, rfl, rfl, rfl,
    by decide +kernel⟩
  obtain rfl : 0x01 = c := by simpa [running] using hc
  obtain rfl : Instr.teaEnc = i := by simpa using (show Except.ok Instr.teaEnc = Except.ok i from hi)
  decide

/-- A state that is not the one after reset meets the invariant and steps. -/
theorem witness_StepKeepsInvariant : ∃ s t : State, s ≠ State.reset ∧ Invariant s ∧ step s = .next t :=
  ⟨withMoves [.host (.writeIn 0 [0x01])], _, by decide +kernel, ⟨by decide, rfl, rfl, by decide, by decide⟩, rfl⟩

/-- Each command where it reaches no unwritten register: all four written; CHAIN_INIT and an MSG_DEC that rejects its
length with other registers unwritten, whose refilled state differs; and a step of each kind of move. -/
theorem witness_UnwrittenContentsMakeNoDifference :
    (v15 16).written = ⟨true, .value, true, true⟩ ∧ unwrittenReads .chainInit State.reset = [] ∧
      unwrittenReads .msgDec { State.reset with inLen := 5, written := ⟨false, .nothing, true, false⟩ } = [] ∧
      (refill keyRef v1Out 4 64 State.reset).key = keyRef ∧ (refill keyRef v1Out 4 64 (v15 16)) = v15 16 ∧
      (readsWritten (running 0x10 [.wait]) = true ∧ ∃ t, step (running 0x10 [.wait]) = .next t) ∧
      ∀ m ∈ [Move.wait, .core, .rng [0x01], .reset, .host (.readReg 0x09), .host (.writeReg 0x02 (.key keyRef))],
        readsWritten (withMoves [m]) = true ∧ ∃ t, step (withMoves [m]) = .next t := by
  refine ⟨rfl, by decide, by decide, by decide, by decide +kernel, ⟨by decide, _, rfl⟩, fun m hm => ?_⟩
  simp only [List.mem_cons, List.not_mem_nil, or_false] at hm
  rcases hm with rfl | rfl | rfl | rfl | rfl | rfl <;> exact ⟨by decide, _, rfl⟩

/-- A running CHAIN_ENC with a host that reads `STATUS`, and a `BLK` that holds a value; and a running MSG_DEC on one that
holds none. -/
theorem witness_RunningCommandEnds :
    let s := running 0x11 [.host (.readReg 0x01), .rng [0x01], .wait]
    let u := { running 0x21 [] with written := ⟨true, .nothing, true, true⟩ }
    (busyBit s.status = true ∧ s.running ≠ none ∧ (∀ a, .host a ∈ s.pending → a = .readReg 0x01) ∧
      s.written.blk ≠ .nothing) ∧
      busyBit u.status = true ∧ u.running ≠ none ∧ (∀ a, .host a ∈ u.pending → a = .readReg 0x01) ∧
        u.written.blk = .nothing ∧ ∀ c ∈ [0x01#8, 0x02#8, 0x11#8, 0x12#8], u.running ≠ some c :=
  ⟨⟨rfl, nofun, by simp [running], nofun⟩, rfl, nofun, nofun, rfl, by decide⟩

end Sys2Proof.Tests
end

section
/-! PROOFS. The statements about the state: what a command leaves when it ends, the invariant, the inputs only the host
changes, the registers a message command leaves unspecified, and registers that hold no value. -/

namespace Sys2Proof.Machine

open Sys2Proof

/-! ### What a command that completes has done -/

@[simp] theorem busyBit_endStatus (code : StatusCode) : busyBit (endStatus code) = false := by
  cases code <;> decide

/-- `OUT` of `t` is that of `s` with some bytes written from offset 0 on, none at `OUT_CAP` or beyond (20_memory.md R52). -/
def OutWithinCap (s t : State) : Prop :=
  ∃ bs : List Byte, bs.length ≤ s.outCap.toNat ∧ t.outBuf = Memory.writeBytes s.outBuf 0 bs

theorem OutWithinCap.of_eq {s t : State} (h : t.outBuf = s.outBuf) : OutWithinCap s t :=
  ⟨[], Nat.zero_le _, h⟩

/-- Bytes written below `OUT_CAP` keep the canonical form: every such offset exists. -/
theorem OutWithinCap.wf {s t : State} (h : OutWithinCap s t) (hs : Memory.wf s.outBuf = true) :
    Memory.wf t.outBuf = true := by
  obtain ⟨bs, hlen, hout⟩ := h
  have hcap : s.outCap.toNat < 2 ^ 32 := s.outCap.isLt
  rw [hout]
  exact Memory.wf_writeBytes bs _ 0 hs (by simp only [lenSpace]; omega)

/-- What a message command does before it reports: it writes `OUT` below `OUT_CAP`, draws, and takes free values. -/
structure MessageWork (s u : State) : Prop where
  frame : u = { s with outBuf := u.outBuf, rngQueue := u.rngQueue, rngDrawn := u.rngDrawn, fresh := u.fresh }
  fresh_le : s.fresh ≤ u.fresh
  out : OutWithinCap s u

theorem MessageWork.key {s u : State} (h : MessageWork s u) : u.key = s.key := by rw [h.frame]
theorem MessageWork.inLen {s u : State} (h : MessageWork s u) : u.inLen = s.inLen := by rw [h.frame]
theorem MessageWork.outCap {s u : State} (h : MessageWork s u) : u.outCap = s.outCap := by rw [h.frame]
theorem MessageWork.cfg {s u : State} (h : MessageWork s u) : u.cfg = s.cfg := by rw [h.frame]
theorem MessageWork.inBuf {s u : State} (h : MessageWork s u) : u.inBuf = s.inBuf := by rw [h.frame]

theorem messageWork_refl (s : State) : MessageWork s s := ⟨rfl, le_rfl, .of_eq rfl⟩

/-- The four draws of MSG_ENC and the ciphertext in `OUT`. -/
theorem messageWork_encrypt (s : State) (h : totalLength s.inLen.toNat ≤ s.outCap.toNat) :
    MessageWork s
      (writeOut 0 (encryptMessage s.key (fillCountOf s.inLen.toNat) (drawFour s).1 (inOperand s)) (drawFour s).2) where
  frame := by rw [drawFour_state]; rfl
  fresh_le := by simp
  out := by
    have hlen := length_encryptMessage s.key (drawFour s).1 (inOperand s)
    rw [length_inOperand] at hlen
    exact ⟨_, hlen.trans_le h, by simp⟩

/-- The plaintext MSG_DEC copies to `OUT`. -/
theorem messageWork_copy (s : State) (n len : Nat) (pl : List Byte) (h : len ≤ s.outCap.toNat) :
    MessageWork s (writeOut 0 (copyWindow n len pl) s) :=
  ⟨rfl, le_rfl, _, (List.length_take_le _ _).trans h, rfl⟩

/-- The free bytes MSG_DEC leaves in `OUT` after a non-zero trailer. -/
theorem messageWork_free (s : State) (n : Nat) (h : n ≤ s.outCap.toNat) : MessageWork s (freeOut n s) :=
  ⟨rfl, Nat.le_add_right _ _, _, by rwa [length_freeBytes], rfl⟩

/-- A message command always completes: its work, a report, and the chaining state discarded (10_state.md R43). -/
theorem exec_message {i : Instr} (s : State) (hi : i = .msgEnc ∨ i = .msgDec) :
    ∃ u code res, MessageWork s u ∧ exec i s = .next (discardChain (raiseStatus code res u)) := by
  rcases hi with rfl | rfl
  · rcases exec_msgEnc_cases s with ⟨code, res, -, -, h⟩ | ⟨-, hcap, h⟩
    · exact ⟨s, code, res, messageWork_refl s, h⟩
    · exact ⟨_, .ok, _, messageWork_encrypt s hcap, h⟩
  · rcases exec_msgDec_cases s with ⟨code, res, -, -, h⟩ | ⟨m, -, hcap, -, -, -, ⟨-, h⟩ | ⟨-, h⟩⟩
    · exact ⟨s, code, res, messageWork_refl s, h⟩
    · exact ⟨_, .ok, _, messageWork_copy s _ _ _ hcap, h⟩
    · exact ⟨_, _, 0, messageWork_free s _ hcap, h⟩

/-- A command that completes wrote `BLK` and perhaps the chaining state, or zeroed the chaining state, or did a message
command's work, and then reported. -/
theorem exec_next_cases {i : Instr} {s t : State} (h : exec i s = .next t) :
    (∃ B c, t = finish 8 (writeBlk B { s with chain := c })) ∨
      t = finish 0 { s with chain := Chain.zero } ∨
      ∃ u code res, MessageWork s u ∧ t = discardChain (raiseStatus code res u) := by
  have hblk : i = .teaEnc ∨ i = .teaDec ∨ i = .chainEnc ∨ i = .chainDec → s.written.blk ≠ .nothing := fun hi hn => by
    rw [exec_block_fault hi hn] at h; cases h
  have hmsg : i = .msgEnc ∨ i = .msgDec →
      ∃ u code res, MessageWork s u ∧ t = discardChain (raiseStatus code res u) := fun hi => by
    obtain ⟨u, code, res, hu, he⟩ := exec_message s hi
    rw [he] at h; cases h
    exact ⟨u, code, res, hu, rfl⟩
  cases i with
  | teaEnc => rw [exec_teaEnc (hblk (by simp))] at h; cases h; exact .inl ⟨_, s.chain, rfl⟩
  | teaDec => rw [exec_teaDec (hblk (by simp))] at h; cases h; exact .inl ⟨_, s.chain, rfl⟩
  | chainInit => rw [exec_chainInit] at h; cases h; exact .inr (.inl rfl)
  | chainEnc => rw [exec_chainEnc (hblk (by simp))] at h; cases h; exact .inl ⟨_, _, rfl⟩
  | chainDec => rw [exec_chainDec (hblk (by simp))] at h; cases h; exact .inl ⟨_, _, rfl⟩
  | msgEnc => exact .inr (.inr (hmsg (.inl rfl)))
  | msgDec => exact .inr (.inr (hmsg (.inr rfl)))

/-- `t` is where a command begun in `s` ended: it reported a code and holds nothing, and its inputs and `IN` are as they
were (10_state.md R35, R36, R42, 60_exceptions.md R200). -/
structure CommandEnd (s t : State) : Prop where
  status : ∃ code, t.status = endStatus code
  running : t.running = none
  bt : t.bt = none
  mc : t.mc = none
  key : t.key = s.key
  inLen : t.inLen = s.inLen
  outCap : t.outCap = s.outCap
  cfg : t.cfg = s.cfg
  inBuf : t.inBuf = s.inBuf
  out : OutWithinCap s t

theorem commandEnd_illegalCommand (s : State) : CommandEnd s (illegalCommand s) :=
  ⟨⟨_, rfl⟩, rfl, rfl, rfl, rfl, rfl, rfl, rfl, rfl, .of_eq rfl⟩

theorem exec_next_commandEnd {i : Instr} {s t : State} (h : exec i s = .next t) : CommandEnd s t := by
  rcases exec_next_cases h with ⟨B, c, rfl⟩ | rfl | ⟨u, code, res, hu, rfl⟩
  · exact ⟨⟨_, rfl⟩, rfl, rfl, rfl, rfl, rfl, rfl, rfl, rfl, .of_eq rfl⟩
  · exact ⟨⟨_, rfl⟩, rfl, rfl, rfl, rfl, rfl, rfl, rfl, rfl, .of_eq rfl⟩
  · exact ⟨⟨_, rfl⟩, rfl, rfl, rfl, hu.key, hu.inLen, hu.outCap, hu.cfg, hu.inBuf, hu.out⟩

/-- The core's move keeps an idle machine, or ends the running command. -/
theorem coreMove_next {s t : State} (h : coreMove s = .next t) : t = s ∨ CommandEnd s t := by
  rcases coreMove_cases s with ⟨-, h'⟩ | ⟨_, _, -, -, h'⟩ | ⟨_, _, -, -, h'⟩ <;> rw [h'] at h
  · cases h; exact .inl rfl
  · exact .inr (exec_next_commandEnd h)
  · cases h; exact .inr (commandEnd_illegalCommand s)

/-! ### The invariant -/

/-- A state in which no command runs has a legal `STATUS` once a command reported there. -/
theorem statusLegal_of_endStatus {t : State} {code : StatusCode} (hs : t.status = endStatus code)
    (hr : t.running = none) : statusLegal t = true := by
  rw [statusLegal, hs, hr]
  cases code <;> decide

theorem statusLegal_startCommand (c : BitVec 8) (s : State) : statusLegal (startCommand c s) = true := by
  rw [statusLegal, startCommand_status, startCommand_running, Option.isSome_some]
  decide

theorem statusLegal_assertReset (s : State) : statusLegal (assertReset s) = true := by
  have hreset : statusLegal State.reset = true := by decide
  exact hreset

theorem CommandEnd.invariant {s t : State} (h : CommandEnd s t) (hs : Invariant s) : Invariant t := by
  obtain ⟨-, -, -, hin, hout⟩ := hs
  obtain ⟨code, hcode⟩ := h.status
  exact ⟨statusLegal_of_endStatus hcode h.running, h.bt, h.mc, by rwa [h.inBuf], h.out.wf hout⟩

theorem coreMove_keeps_invariant {s t : State} (hs : Invariant s) (h : coreMove s = .next t) : Invariant t := by
  rcases coreMove_next h with rfl | hend
  · exact hs
  · exact hend.invariant hs

theorem hostMove_keeps_invariant {a : HostAction} {s t : State} (hs : Invariant s) (h : hostMove a s = .next t) :
    Invariant t := by
  obtain ⟨hst, hbt, hmc, hin, hout⟩ := hs
  rcases hostMove_next a s t h with ⟨v, rfl⟩ | ⟨-, ⟨c, -, rfl⟩ | ⟨k, -, rfl⟩ | ⟨b, -, rfl⟩ | ⟨n, -, rfl⟩ | ⟨n, -, rfl⟩ |
    ⟨off, bs, -, hoff, rfl⟩ | ⟨off, bs, -, hoff, rfl⟩⟩
  · exact ⟨hst, hbt, hmc, hin, hout⟩
  · exact ⟨statusLegal_startCommand c s, hbt, hmc, hin, hout⟩
  · exact ⟨hst, hbt, hmc, hin, hout⟩
  · exact ⟨hst, hbt, hmc, hin, hout⟩
  · exact ⟨hst, hbt, hmc, hin, hout⟩
  · exact ⟨hst, hbt, hmc, hin, hout⟩
  · exact ⟨hst, hbt, hmc, Memory.wf_writeBytes bs _ off hin hoff, hout⟩
  · exact ⟨hst, hbt, hmc, hin, Memory.wf_writeBytes bs _ off hout hoff⟩

/-- Abandoning a command touches `OUT` below `OUT_CAP`, the RNG's record and the supply of free values only. -/
theorem messageWork_abandonCommand (s : State) : MessageWork s (abandonCommand s) := by
  rcases abandonCommand_cases s with h | ⟨_, i, -, -, -, h⟩ <;> rw [h]
  · exact messageWork_refl s
  · have hfree := messageWork_free s (outReach i s) (outReach_le i s)
    rcases abandonDraws_cases i (freeOut (outReach i s) s) with ⟨-, h'⟩ | ⟨k, -, -, h'⟩ <;> rw [h']
    · exact hfree
    · exact ⟨rfl, Nat.le_succ_of_le hfree.fresh_le, hfree.out⟩

/-- Settles O57, the state being closed data. -/
theorem resetStateMeetsInvariant : Obligations.ResetStateMeetsInvariant :=
  ⟨by decide, rfl, rfl, Memory.wf_reset⟩

theorem assertReset_keeps_invariant {s : State} (hs : Invariant s) : Invariant (assertReset s) := by
  obtain ⟨-, -, -, hin, hout⟩ := hs
  have hwork := messageWork_abandonCommand s
  exact ⟨statusLegal_assertReset s, rfl, rfl, (congrArg Memory.wf hwork.inBuf).trans hin, hwork.out.wf hout⟩

/-- Settles O58, by the kinds of step: the core's, the host's and the reset keep the invariant, and a wait and the RNG
change nothing it speaks of. -/
theorem stepKeepsInvariant : Obligations.StepKeepsInvariant := by
  intro s t hs h
  rcases step_next s t h with hc | ⟨after, -, hc⟩ | ⟨a, after, -, hh⟩ | ⟨-, after, -, rfl | rfl⟩ | ⟨bs, after, -, rfl⟩ |
    ⟨after, -, rfl⟩
  · exact coreMove_keeps_invariant hs hc
  · exact coreMove_keeps_invariant (s := { s with pending := after }) hs hc
  · exact hostMove_keeps_invariant (s := { s with pending := after }) hs hh
  · exact hs
  · exact hs
  · exact hs
  · exact assertReset_keeps_invariant (s := { s with pending := after }) hs

/-! ### The inputs -/

/-- `KEY`, `IN_LEN`, `OUT_CAP` and the parameters of `t` are those of `s`. -/
def SameInputs (s t : State) : Prop :=
  t.key = s.key ∧ t.inLen = s.inLen ∧ t.outCap = s.outCap ∧ t.cfg = s.cfg

theorem coreMove_keeps_inputs {s t : State} (h : coreMove s = .next t) : SameInputs s t := by
  rcases coreMove_next h with rfl | hend
  · exact ⟨rfl, rfl, rfl, rfl⟩
  · exact ⟨hend.key, hend.inLen, hend.outCap, hend.cfg⟩

/-- A step that keeps the inputs needs no cause for a change of one of them. -/
theorem SameInputs.no_change {s t : State} {p q r : Prop} (h : SameInputs s t) :
    t.cfg = s.cfg ∧ (t.key ≠ s.key → p) ∧ (t.inLen ≠ s.inLen → q) ∧ (t.outCap ≠ s.outCap → r) := by
  obtain ⟨hkey, hlen, hcap, hcfg⟩ := h
  exact ⟨hcfg, fun hne => absurd hkey hne, fun hne => absurd hlen hne, fun hne => absurd hcap hne⟩

/-- Settles O52, by the kinds of step. -/
theorem onlyHostChangesInputs : Obligations.OnlyHostChangesInputs := by
  intro s t h
  rcases step_next s t h with hc | ⟨after, -, hc⟩ | ⟨a, after, hp, hh⟩ | ⟨-, after, -, rfl | rfl⟩ | ⟨bs, after, -, rfl⟩ |
    ⟨after, hp, rfl⟩
  · exact (coreMove_keeps_inputs hc).no_change
  · exact (coreMove_keeps_inputs hc).no_change
  · rcases hostMove_next a _ t hh with ⟨v, rfl⟩ | ⟨hb, ⟨c, -, rfl⟩ | ⟨k, rfl, rfl⟩ | ⟨b, -, rfl⟩ | ⟨n, rfl, rfl⟩ |
      ⟨n, rfl, rfl⟩ | ⟨off, bs, -, -, rfl⟩ | ⟨off, bs, -, -, rfl⟩⟩
    · exact SameInputs.no_change ⟨rfl, rfl, rfl, rfl⟩
    · exact SameInputs.no_change ⟨rfl, rfl, rfl, rfl⟩
    · exact ⟨rfl, fun _ => .inr ⟨hb, after, hp⟩, fun hne => absurd rfl hne, fun hne => absurd rfl hne⟩
    · exact SameInputs.no_change ⟨rfl, rfl, rfl, rfl⟩
    · exact ⟨rfl, fun hne => absurd rfl hne, fun _ => .inr ⟨hb, after, hp⟩, fun hne => absurd rfl hne⟩
    · exact ⟨rfl, fun hne => absurd rfl hne, fun hne => absurd rfl hne, fun _ => .inr ⟨hb, after, hp⟩⟩
    · exact SameInputs.no_change ⟨rfl, rfl, rfl, rfl⟩
    · exact SameInputs.no_change ⟨rfl, rfl, rfl, rfl⟩
  · exact SameInputs.no_change ⟨rfl, rfl, rfl, rfl⟩
  · exact SameInputs.no_change ⟨rfl, rfl, rfl, rfl⟩
  · exact SameInputs.no_change ⟨rfl, rfl, rfl, rfl⟩
  · have hcfg : (assertReset { s with pending := after }).cfg = s.cfg :=
      (messageWork_abandonCommand { s with pending := after }).cfg
    exact ⟨hcfg, fun _ => .inl ⟨after, hp⟩, fun _ => .inl ⟨after, hp⟩, fun _ => .inl ⟨after, hp⟩⟩

/-! ### After a message command -/

/-- Settles O44: the report keeps the supply of free values, and discarding the chain takes the next four. -/
theorem messagesDiscardChain : Obligations.MessagesDiscardChain := by
  intro i s hi
  obtain ⟨u, code, res, hu, h⟩ := exec_message s hi
  refine ⟨_, u.fresh, h, hu.fresh_le, rfl, rfl, rfl, rfl, rfl, rfl, by simp [unwrittenReads, unwritten],
    fun j hj => exec_block_fault hj rfl, fun after => step_readBlk_nothing rfl (busyBit_endStatus code) rfl⟩

/-! ### Hidden state (10_state.md R35 to R37) -/

/-- `STATUS`, `RES_LEN`, the running byte and the hidden state of both units replaced. -/
def withHidden (st : BitVec 8) (rl : Len) (r : Option (BitVec 8)) (b : Option BtState) (m : Option McState)
    (s : State) : State :=
  { s with status := st, resLen := rl, running := r, bt := b, mc := m }

section
variable (st : BitVec 8) (rl : Len) (r : Option (BitVec 8)) (b : Option BtState) (m : Option McState) (s : State)

theorem exec_msgEnc_withHidden : exec .msgEnc (withHidden st rl r b m s) = exec .msgEnc s := by
  have hplan : encPlan (withHidden st rl r b m s) = encPlan s := encPlan_congr s _ rfl rfl
  have hdraws : (drawFour (withHidden st rl r b m s)).1 = (drawFour s).1 := by rw [drawFour_draws, drawFour_draws]; rfl
  have hdrawn : (drawFour (withHidden st rl r b m s)).2 = withHidden st rl r b m (drawFour s).2 := by
    rw [drawFour_state, drawFour_state]; rfl
  rw [exec_msgEnc_eq, exec_msgEnc_eq, hplan, hdraws, hdrawn]
  cases encPlan s <;> rfl

theorem exec_msgDec_withHidden : exec .msgDec (withHidden st rl r b m s) = exec .msgDec s := by
  have hplan : decPlan (withHidden st rl r b m s) = decPlan s := decPlan_congr s _ rfl rfl rfl rfl fun _ _ => rfl
  rw [exec_msgDec_eq, exec_msgDec_eq, hplan]
  cases decPlan s <;> rfl

end

/-- Settles O9: a block command's and CHAIN_INIT's report overwrites the hidden state, and the checks and draws of a
message command do not look at it. -/
theorem noHiddenStateCarries : Obligations.NoHiddenStateCarries := by
  intro i s st rl r b m
  cases i with
  | teaEnc => rfl
  | teaDec => rfl
  | chainInit => rfl
  | chainEnc => rfl
  | chainDec => rfl
  | msgEnc => exact exec_msgEnc_withHidden st rl r b m s
  | msgDec => exact exec_msgDec_withHidden st rl r b m s

/-! ### The idle host's register accesses -/

/-- An idle host's step is its access, used up. -/
theorem step_host_idle {s : State} {a : HostAction} {after : List Move} (hp : s.pending = .host a :: after)
    (hb : busyBit s.status = false) : step s = hostAccess a { s with pending := after } := by
  rw [step_host hp, hostMove_idle (s := { s with pending := after }) a hb]

theorem regOfNumber_reserved {no : BitVec 8} (h : 0x0A ≤ no.toNat) : regOfNumber no = none := by
  rw [regOfNumber_eq_none_iff, regNumberDefined, decide_eq_false_iff_not]
  omega

theorem hostReadReg_reserved {no : BitVec 8} (h : 0x0A ≤ no.toNat) (s : State) :
    hostReadReg no s = .refused (.reservedRegister no) := by
  rw [hostReadReg, regOfNumber_reserved h]

theorem hostWriteReg_reserved {no : BitVec 8} (h : 0x0A ≤ no.toNat) (v : RegValue) (s : State) :
    hostWriteReg no v s = .refused (.reservedRegister no) := by
  rw [hostWriteReg, regOfNumber_reserved h]

theorem hostWriteReg_numberOfReg (r : Reg) (v : RegValue) (s : State) :
    hostWriteReg (numberOfReg r) v s = hostWrite r v s := by
  rw [hostWriteReg, regOfNumber_numberOfReg]

/-- A write that is not one whole writable register is refused (10_state.md R22). -/
theorem hostWrite_refused {r : Reg} {v : RegValue} (h : (r.writable && r.takes v) = false) (s : State) :
    hostWrite r v s = if r.writable then .refused (.partialAccess r) else .refused (.readOnlyRegister r) := by
  unfold hostWrite
  split
  · cases h
  · cases h
  · cases h
  · cases h
  · cases h
  · rfl

theorem noValue_eq_false_iff (s : State) (r : Reg) : noValue s r = false ↔ r ≠ .blk ∨ s.written.blk ≠ .nothing := by
  simp [noValue, or_iff_not_imp_left]

/-- A read of a register that holds a value records it (10_state.md R22). -/
theorem hostReadReg_value {r : Reg} {v : RegValue} {s : State} (hv : regValue s r = some v) (h : noValue s r = false) :
    hostReadReg (numberOfReg r) s = .next { s with observed := .reg v :: s.observed } := by
  rw [hostReadReg, regOfNumber_numberOfReg]
  simp [hv, h]

/-- Settles O49: one law for each refusal. -/
theorem forbiddenAccessesRefused : Obligations.ForbiddenAccessesRefused := by
  intro s after no v hb
  refine ⟨fun hno => ⟨fun hp => ?_, fun hp => ?_⟩, fun hp => ?_, fun r hno hr hp => ?_, fun r hno hr hv hp => ?_,
    fun hp => ?_⟩ <;> rw [step_host_idle hp hb]
  · exact hostReadReg_reserved hno _
  · exact hostWriteReg_reserved hno v _
  · rfl
  · subst hno
    exact (hostWriteReg_numberOfReg r v _).trans ((hostWrite_refused (by simp [hr]) _).trans (by simp [hr]))
  · subst hno
    exact (hostWriteReg_numberOfReg r v _).trans ((hostWrite_refused (by simp [hv]) _).trans (by simp [hr]))
  · rfl

/-- Settles O50: each number names its register, and the write is that register's. -/
theorem hostWritesOneRegister : Obligations.HostWritesOneRegister := by
  intro s after hb
  refine ⟨fun k hp => ?_, fun b hp => ?_, fun n hp => ?_, fun n hp => ?_⟩ <;> rw [step_host_idle hp hb]
  · exact hostWriteReg_numberOfReg .key (.key k) _
  · exact hostWriteReg_numberOfReg .blk (.block b) _
  · exact hostWriteReg_numberOfReg .inLen (.len n) _
  · exact hostWriteReg_numberOfReg .outCap (.len n) _

/-- Settles O51: each listed number is that of a register with the listed value, and only `BLK` can hold none. -/
theorem hostReadsAnswerRegisters : Obligations.HostReadsAnswerRegisters := by
  intro s after no v hb hmem hp
  obtain ⟨r, hno, hv⟩ : ∃ r, no = numberOfReg r ∧ regValue s r = some v := by
    simp only [List.mem_cons, Prod.mk.injEq, List.not_mem_nil, or_false] at hmem
    rcases hmem with ⟨rfl, rfl⟩ | ⟨rfl, rfl⟩ | ⟨rfl, rfl⟩ | ⟨rfl, rfl⟩ | ⟨rfl, rfl⟩ | ⟨rfl, rfl⟩ | ⟨rfl, rfl⟩ |
      ⟨rfl, rfl⟩ | ⟨rfl, rfl⟩
    exacts [⟨.status, rfl, rfl⟩, ⟨.key, rfl, rfl⟩, ⟨.blk, rfl, rfl⟩, ⟨.prevOut, rfl, rfl⟩, ⟨.prevMix, rfl, rfl⟩,
      ⟨.blkCount, rfl, rfl⟩, ⟨.inLen, rfl, rfl⟩, ⟨.outCap, rfl, rfl⟩, ⟨.resLen, rfl, rfl⟩]
  subst hno
  refine ⟨fun h => ?_, fun h hn => step_readBlk_nothing (h ▸ hp) hb hn⟩
  have hval : noValue s r = false := (noValue_eq_false_iff s r).mpr (h.imp_left fun hne he => hne (by rw [he]; rfl))
  rw [step_host_idle hp hb]
  exact hostReadReg_value (s := { s with pending := after }) hv hval

/-! ### Idle steps and reset -/

theorem coreMove_idle {s : State} (h : s.running = none) : coreMove s = .next s := by
  rw [coreMove, h]

/-- Settles O53: both steps are the core's move on an idle machine. -/
theorem idleMachineKeepsState : Obligations.IdleMachineKeepsState := by
  intro s hr
  refine ⟨fun hp => ?_, fun after hp => ?_⟩ <;> rw [step, moveNext, hp]
  · exact coreMove_idle hr
  · exact coreMove_idle (s := { s with pending := after }) hr

/-- Settles O55: the fields of the reset state as 10_state.md R39 lists them. -/
theorem resetRegisterValues : Obligations.ResetRegisterValues :=
  ⟨rfl, rfl, rfl, rfl, rfl, rfl, rfl⟩

/-! ### Other contents in the unwritten registers (10_state.md R38) -/

section
variable (k : Key) (b : Block) (n c : Len)

theorem refill_key {s : State} (h : unwritten s .key = false) : (refill k b n c s).key = s.key := by
  simp [refill, h]

theorem refill_blk {s : State} (h : unwritten s .blk = false) : (refill k b n c s).blk = s.blk := by
  simp [refill, h]

theorem refill_inLen {s : State} (h : unwritten s .inLen = false) : (refill k b n c s).inLen = s.inLen := by
  simp [refill, h]

theorem refill_outCap {s : State} (h : unwritten s .outCap = false) : (refill k b n c s).outCap = s.outCap := by
  simp [refill, h]

/-- A written register is not refilled. -/
theorem regValue_refill {s : State} {r : Reg} (h : unwritten s r = false) :
    regValue (refill k b n c s) r = regValue s r := by
  cases r with
  | key => simp only [regValue, refill_key k b n c h]
  | blk => simp only [regValue, refill_blk k b n c h]
  | inLen => simp only [regValue, refill_inLen k b n c h]
  | outCap => simp only [regValue, refill_outCap k b n c h]
  | cmd | status | prevOut | prevMix | blkCount | resLen => rfl

/-! The parts of a command commute with refilling: only a write of `BLK` and the end of a message command change which
registers are written. -/

theorem freeOut_refill (m : Nat) (s : State) : freeOut m (refill k b n c s) = refill k b n c (freeOut m s) := rfl

theorem drawFour_draws_refill (s : State) : (drawFour (refill k b n c s)).1 = (drawFour s).1 := by
  rw [drawFour_draws, drawFour_draws]; rfl

theorem drawFour_state_refill (s : State) : (drawFour (refill k b n c s)).2 = refill k b n c (drawFour s).2 := by
  rw [drawFour_state, drawFour_state]; rfl

end

/-! ### Which registers the checks of a message command reach -/

/-- MSG_ENC reaches no unwritten register: `IN_LEN` is written, and its value ends the command, or `OUT_CAP` is written
too, and ends it, or `KEY` is written too (44_message_codec.md R150). -/
theorem unwrittenReadsEnc_nil {s : State} (h : unwrittenReadsEnc s = []) :
    unwritten s .inLen = false ∧
      ((s.inLen.toNat = 0 ∨ lMax < s.inLen.toNat) ∨
        unwritten s .outCap = false ∧ (s.outCap.toNat < totalLength s.inLen.toNat ∨ unwritten s .key = false)) := by
  unfold unwrittenReadsEnc inLenOperand outCapOperand at h
  split at h
  · cases h
  next hi =>
  refine ⟨by simpa using hi, ?_⟩
  split at h
  · next hL => exact .inl hL
  · split at h
    · cases h
    next ho =>
    refine .inr ⟨by simpa using ho, ?_⟩
    split at h
    · next hc => exact .inl hc
    · exact .inr (by simpa using h)

/-- MSG_DEC reaches no unwritten register: `IN_LEN` is written, and its value ends the command, or `KEY` is written too,
and the first block ends it, or `OUT_CAP` is written too (44_message_codec.md R151). -/
theorem unwrittenReadsDec_nil {s : State} (h : unwrittenReadsDec s = []) :
    unwritten s .inLen = false ∧
      ((s.inLen.toNat < 16 ∨ s.inLen.toNat % 8 ≠ 0) ∨
        unwritten s .key = false ∧
          (fillMismatch (firstPlain s.key s.inBuf) = true ∨
            s.inLen.toNat < headerCount (firstPlain s.key s.inBuf) + 10 ∨ unwritten s .outCap = false)) := by
  unfold unwrittenReadsDec inLenOperand keyOperand at h
  split at h
  · cases h
  next hi =>
  refine ⟨by simpa using hi, ?_⟩
  split at h
  · next hL => exact .inl hL
  · split at h
    · cases h
    next hk =>
    refine .inr ⟨by simpa using hk, ?_⟩
    split at h
    · next hf => exact .inl hf
    · split at h
      · next ho => exact .inr (.inl ho)
      · exact .inr (.inr (by simpa using h))

theorem encPlan_of_bad_length {s : State} (h : s.inLen.toNat = 0 ∨ lMax < s.inLen.toNat) :
    encPlan s = .error (.invalidInput, 0) := by
  rcases encPlan_cases s with ⟨-, he⟩ | ⟨h1, h2, -⟩ | ⟨h1, h2, -⟩
  · exact he
  · omega
  · omega

theorem decPlan_of_bad_length {s : State} (h : s.inLen.toNat < 16 ∨ s.inLen.toNat % 8 ≠ 0) :
    decPlan s = .error (.invalidLength, 0) := if_pos h

/-- MSG_DEC does not look at `OUT_CAP` when the fill check or the overrun check fails (44_message_codec.md R176). -/
theorem decPlan_outCap {s : State} (cap : Len)
    (h : fillMismatch (firstPlain s.key s.inBuf) = true ∨
      s.inLen.toNat < headerCount (firstPlain s.key s.inBuf) + 10) :
    decPlan { s with outCap := cap } = decPlan s := by
  simp only [decPlan, inLenOperand, keyOperand, overhead]
  rcases h with hf | ho
  · simp only [hf, if_true]
  · simp only [ho, if_true]

section
variable (k : Key) (b : Block) (n c : Len)

/-- MSG_ENC's checks answer the same on a refilled state where they reach no unwritten register. -/
theorem encPlan_refill {s : State} (h : unwrittenReadsEnc s = []) : encPlan (refill k b n c s) = encPlan s := by
  obtain ⟨hi, hrest⟩ := unwrittenReadsEnc_nil h
  have hlen := refill_inLen k b n c hi
  rcases hrest with hL | ⟨ho, -⟩
  · rw [encPlan_of_bad_length hL, encPlan_of_bad_length (by rwa [hlen])]
  · exact encPlan_congr s _ hlen (refill_outCap k b n c ho)

/-- MSG_DEC's checks answer the same on a refilled state where they reach no unwritten register. -/
theorem decPlan_refill {s : State} (h : unwrittenReadsDec s = []) : decPlan (refill k b n c s) = decPlan s := by
  obtain ⟨hi, hrest⟩ := unwrittenReadsDec_nil h
  have hlen := refill_inLen k b n c hi
  rcases hrest with hL | ⟨hk, hrest⟩
  · rw [decPlan_of_bad_length hL, decPlan_of_bad_length (by rwa [hlen])]
  · have hkey := refill_key k b n c hk
    have hcap : decPlan (refill k b n c s) = decPlan { s with outCap := (refill k b n c s).outCap } :=
      decPlan_congr _ _ hkey hlen rfl rfl fun _ _ => rfl
    rw [hcap]
    rcases hrest with hf | ho | ho
    · exact decPlan_outCap _ (.inl hf)
    · exact decPlan_outCap _ (.inr ho)
    · rw [refill_outCap k b n c ho]

/-- What an abandoned command could have written is the same where its checks reach no unwritten register. -/
theorem outReach_refill {i : Instr} {s : State} (h : unwrittenReads i s = []) :
    outReach i (refill k b n c s) = outReach i s := by
  cases i with
  | msgEnc => rw [outReach, outReach, encPlan_refill k b n c h]
  | msgDec => rw [outReach, outReach, decPlan_refill k b n c h]
  | teaEnc | teaDec | chainInit | chainEnc | chainDec => rfl

/-! ### Commands on a refilled state -/

/-- A block command reaches `BLK` and `KEY`. -/
theorem unwrittenReads_block_nil {i : Instr} {s : State}
    (hi : i = .teaEnc ∨ i = .teaDec ∨ i = .chainEnc ∨ i = .chainDec) (h : unwrittenReads i s = []) :
    s.written.blk ≠ .nothing ∧ unwritten s .blk = false ∧ unwritten s .key = false := by
  have hf : [Reg.blk, Reg.key].filter (unwritten s) = [] := by
    rcases hi with rfl | rfl | rfl | rfl <;> exact h
  obtain ⟨hb, hk⟩ : unwritten s .blk = false ∧ unwritten s .key = false := by
    simpa [List.filter_eq_nil_iff] using hf
  exact ⟨fun hn => by simp [unwritten, hn] at hb, hb, hk⟩

/-- A block command that reaches no unwritten register completes and commutes with refilling. -/
theorem exec_block_refill {i : Instr} {s : State} (hi : i = .teaEnc ∨ i = .teaDec ∨ i = .chainEnc ∨ i = .chainDec)
    (h : unwrittenReads i s = []) :
    ∃ t, exec i s = .next t ∧ exec i (refill k b n c s) = .next (refill k b n c t) := by
  obtain ⟨hn, hb, hk⟩ := unwrittenReads_block_nil hi h
  have hblk := refill_blk k b n c hb
  have hkey := refill_key k b n c hk
  rcases hi with rfl | rfl | rfl | rfl
  · exact ⟨_, exec_teaEnc hn, by rw [exec_teaEnc (s := refill k b n c s) hn, hblk, hkey]; rfl⟩
  · exact ⟨_, exec_teaDec hn, by rw [exec_teaDec (s := refill k b n c s) hn, hblk, hkey]; rfl⟩
  · have hstep : chainEncStep (refill k b n c s).key (refill k b n c s).chain (refill k b n c s).blk =
        chainEncStep s.key s.chain s.blk := by rw [hkey, hblk]; rfl
    exact ⟨_, exec_chainEnc hn, by rw [exec_chainEnc (s := refill k b n c s) hn, hstep]; rfl⟩
  · have hstep : chainDecStep (refill k b n c s).key (refill k b n c s).chain (refill k b n c s).blk =
        chainDecStep s.key s.chain s.blk := by rw [hkey, hblk]; rfl
    exact ⟨_, exec_chainDec hn, by rw [exec_chainDec (s := refill k b n c s) hn, hstep]; rfl⟩

theorem exec_msgEnc_refill {s : State} (h : unwrittenReadsEnc s = []) :
    ∃ t, exec .msgEnc s = .next t ∧ exec .msgEnc (refill k b n c s) = .next (refill k t.blk n c t) := by
  refine ⟨_, exec_msgEnc_eq s, ?_⟩
  obtain ⟨hi, hrest⟩ := unwrittenReadsEnc_nil h
  have hin : inOperand (refill k b n c s) = inOperand s := inOperand_congr s _ (refill_inLen k b n c hi) fun _ _ => rfl
  rw [exec_msgEnc_eq, encPlan_refill k b n c h, drawFour_draws_refill, drawFour_state_refill, hin]
  cases hm : encPlan s with
  | error e => rfl
  | ok m =>
    have hkey : unwritten s .key = false := by
      rcases hrest with hL | ⟨-, hcap | hkey⟩
      · rw [encPlan_of_bad_length hL] at hm; cases hm
      · exact absurd (encPlan_ok hm).2 (by omega)
      · exact hkey
    rw [refill_key k b n c hkey]
    rfl

theorem exec_msgDec_refill {s : State} (h : unwrittenReadsDec s = []) :
    ∃ t, exec .msgDec s = .next t ∧ exec .msgDec (refill k b n c s) = .next (refill k t.blk n c t) := by
  refine ⟨_, exec_msgDec_eq s, ?_⟩
  obtain ⟨hi, hrest⟩ := unwrittenReadsDec_nil h
  have hin : inOperand (refill k b n c s) = inOperand s := inOperand_congr s _ (refill_inLen k b n c hi) fun _ _ => rfl
  rw [exec_msgDec_eq, decPlan_refill k b n c h, hin]
  cases hm : decPlan s with
  | error e => rfl
  | ok m =>
    have hkey : unwritten s .key = false := by
      rcases hrest with hL | ⟨hkey, -⟩
      · rw [decPlan_of_bad_length hL] at hm; cases hm
      · exact hkey
    simp only [refill_key k b n c hkey]
    cases trailerZero (decryptMessage s.key (inOperand s)) <;> rfl

/-- A command that reaches no unwritten register completes on both states, and in the same state but for the contents
of the unwritten registers; a message command leaves its own in `BLK`. -/
theorem exec_refill {i : Instr} {s : State} (h : unwrittenReads i s = []) :
    ∃ t, exec i s = .next t ∧
      (i ≠ .msgEnc → i ≠ .msgDec → exec i (refill k b n c s) = .next (refill k b n c t)) ∧
      (i = .msgEnc ∨ i = .msgDec → exec i (refill k b n c s) = .next (refill k t.blk n c t)) := by
  cases i with
  | chainInit => exact ⟨_, exec_chainInit s, fun _ _ => rfl, by simp⟩
  | teaEnc | teaDec | chainEnc | chainDec =>
    obtain ⟨t, ht, hr⟩ := exec_block_refill k b n c (by simp) h
    exact ⟨t, ht, fun _ _ => hr, by simp⟩
  | msgEnc =>
    obtain ⟨t, ht, hr⟩ := exec_msgEnc_refill k b n c h
    exact ⟨t, ht, fun hne => absurd rfl hne, fun _ => hr⟩
  | msgDec =>
    obtain ⟨t, ht, hr⟩ := exec_msgDec_refill k b n c h
    exact ⟨t, ht, fun _ hne => absurd rfl hne, fun _ => hr⟩

/-- Refilling `BLK` with what it holds is no refilling of `BLK`. -/
theorem refill_own_blk (t : State) : refill k t.blk n c t = { refill k b n c t with blk := t.blk } := by
  simp [refill]

/-! ### Steps on a refilled state -/

theorem coreMove_decoded {s : State} {w : BitVec 8} {i : Instr} (hr : s.running = some w) (hd : decodeWord w = .ok i) :
    coreMove s = exec i s := by
  simp only [coreMove, hr, hd]

theorem coreMove_reserved {s : State} {w : BitVec 8} {e : DecodeError} (hr : s.running = some w)
    (hd : decodeWord w = .error e) : coreMove s = .next (illegalCommand s) := by
  simp only [coreMove, hr, hd]

theorem coreReadsWritten_decoded {s : State} {w : BitVec 8} {i : Instr} (hr : s.running = some w)
    (hd : decodeWord w = .ok i) : coreReadsWritten s = true ↔ unwrittenReads i s = [] := by
  simp only [coreReadsWritten, hr, hd, List.isEmpty_iff]

/-- The core's move that reaches no unwritten register commutes with refilling, but for `BLK` after a message command. -/
theorem coreMove_refill {s t : State} (hw : coreReadsWritten s = true) (h : coreMove s = .next t) :
    ∃ b', coreMove (refill k b n c s) = .next (refill k b' n c t) := by
  rcases coreMove_cases s with ⟨hr, h'⟩ | ⟨w, i, hr, hd, h'⟩ | ⟨w, e, hr, hd, h'⟩ <;> rw [h'] at h
  · cases h
    exact ⟨b, coreMove_idle hr⟩
  · obtain ⟨t', ht, hother, hmsg⟩ := exec_refill k b n c ((coreReadsWritten_decoded hr hd).mp hw)
    rw [ht] at h
    cases h
    rw [coreMove_decoded (s := refill k b n c s) hr hd]
    by_cases hi : i = .msgEnc ∨ i = .msgDec
    · exact ⟨_, hmsg hi⟩
    · exact ⟨b, hother (fun he => hi (.inl he)) fun he => hi (.inr he)⟩
  · cases h
    exact ⟨b, coreMove_reserved (s := refill k b n c s) hr hd⟩

theorem waitMove_refill {s t : State} {after : List Move} (hw : coreReadsWritten s = true)
    (h : waitMove after s = .next t) : ∃ b', waitMove after (refill k b n c s) = .next (refill k b' n c t) := by
  have hrun : (refill k b n c s).running = s.running := rfl
  have hstatus : (refill k b n c s).status = s.status := rfl
  unfold waitMove at *
  rw [hrun, hstatus]
  cases hr : s.running with
  | some w =>
    simp only [hr] at h
    exact coreMove_refill k b n c hw h
  | none =>
    simp only [hr] at h
    refine ⟨b, ?_⟩
    split at h
    · next hdone => cases h; exact if_pos hdone
    · next hdone => cases h; exact if_neg hdone

theorem hostReadReg_refill {no : BitVec 8} {s t : State} (hw : ∀ r, regOfNumber no = some r → unwritten s r = false)
    (h : hostReadReg no s = .next t) : hostReadReg no (refill k b n c s) = .next (refill k b n c t) := by
  unfold hostReadReg at *
  cases hr : regOfNumber no with
  | none => simp only [hr] at h; cases h
  | some r =>
    simp only [hr] at h ⊢
    rw [regValue_refill k b n c (hw r hr)]
    cases hv : regValue s r with
    | none => simp only [hv] at h; cases h
    | some v =>
      simp only [hv] at h ⊢
      split at h
      · cases h
      · next hn => cases h; exact if_neg hn

/-- The host's write of a register is the same on a refilled state: the register it writes is then written. -/
theorem hostWriteReg_refill {no : BitVec 8} {v : RegValue} {s t : State} (h : hostWriteReg no v s = .next t) :
    hostWriteReg no v (refill k b n c s) = .next (refill k b n c t) := by
  unfold hostWriteReg at *
  split at h
  · cases h
  next r hr =>
  unfold hostWrite at *
  split at h
  · cases h; rfl
  · cases h; rfl
  · cases h; rfl
  · cases h; rfl
  · cases h; rfl
  · split at h <;> cases h

/-- A buffer access that completes is one at offsets that exist, and did its work. -/
theorem next_of_guard {p : Prop} [Decidable p] {u t : State} {e : Fault}
    (h : (if p then .next u else .fault e : Host.Outcome State Fault Refusal) = .next t) : p ∧ u = t := by
  split at h
  · next hp => cases h; exact ⟨hp, rfl⟩
  · cases h

theorem hostAccess_refill {a : HostAction} {s t : State}
    (hw : ∀ no r, a = .readReg no → regOfNumber no = some r → unwritten s r = false) (h : hostAccess a s = .next t) :
    hostAccess a (refill k b n c s) = .next (refill k b n c t) := by
  cases a with
  | writeReg no v => exact hostWriteReg_refill k b n c h
  | readReg no => exact hostReadReg_refill k b n c (fun r hr => hw no r rfl hr) h
  | writeIn off bs =>
    obtain ⟨hoff, rfl⟩ := next_of_guard h
    exact if_pos hoff
  | readIn off m =>
    obtain ⟨hoff, rfl⟩ := next_of_guard h
    exact if_pos hoff
  | writeOut off bs =>
    obtain ⟨hoff, rfl⟩ := next_of_guard h
    exact if_pos hoff
  | readOut off m =>
    obtain ⟨hoff, rfl⟩ := next_of_guard h
    exact if_pos hoff
  | shareBuffers => cases h

theorem hostMove_refill {a : HostAction} {s t : State}
    (hw : ∀ no r, a = .readReg no → regOfNumber no = some r → unwritten s r = false) (h : hostMove a s = .next t) :
    hostMove a (refill k b n c s) = .next (refill k b n c t) := by
  unfold hostMove at h
  split at h
  · cases h
  · next hb => exact (if_neg hb).trans (hostAccess_refill k b n c hw h)

theorem abandonDraws_refill (i : Instr) (s : State) :
    abandonDraws i (refill k b n c s) = refill k b n c (abandonDraws i s) := by
  cases i <;> rfl

/-- Reset puts every register at its reset value, so it forgets the contents altogether (10_state.md R39). -/
theorem assertReset_refill {s : State} (hw : coreReadsWritten s = true) :
    assertReset (refill k b n c s) = assertReset s := by
  have habandon : abandonCommand (refill k b n c s) = refill k b n c (abandonCommand s) := by
    have hrun : (refill k b n c s).running = s.running := rfl
    unfold abandonCommand
    rw [hrun]
    cases hr : s.running with
    | none => rfl
    | some w =>
      cases hd : decodeWord w with
      | error e => simp only [hd]
      | ok i =>
        simp only [hd, outReach_refill k b n c ((coreReadsWritten_decoded hr hd).mp hw), freeOut_refill,
          abandonDraws_refill]
        split <;> rfl
  rw [assertReset, habandon]
  rfl

/-- A step that reaches no unwritten register leads from the refilled state to the same state but for the contents of
the four registers. -/
theorem step_refill {s t : State} (hw : readsWritten s = true) (h : step s = .next t) :
    ∃ u, step (refill k b n c s) = .next u ∧
      { u with key := t.key, blk := t.blk, inLen := t.inLen, outCap := t.outCap } = t := by
  suffices hstep : (∃ b', step (refill k b n c s) = .next (refill k b' n c t)) ∨ step (refill k b n c s) = .next t by
    rcases hstep with ⟨b', hu⟩ | hu <;> exact ⟨_, hu, rfl⟩
  cases hp : s.pending with
  | nil =>
    have hp' : (refill k b n c s).pending = [] := hp
    rw [readsWritten, hp] at hw
    rw [step, moveNext, hp] at h
    rw [step, moveNext, hp']
    exact .inl (coreMove_refill k b n c hw h)
  | cons mv after =>
    have hp' : (refill k b n c s).pending = mv :: after := hp
    rw [step, moveNext, hp] at h
    rw [step, moveNext, hp']
    rw [readsWritten, hp] at hw
    cases mv with
    | core => exact .inl (coreMove_refill k b n c (s := { s with pending := after }) hw h)
    | wait => exact .inl (waitMove_refill k b n c hw h)
    | rng bs => cases h; exact .inl ⟨b, rfl⟩
    | reset =>
      cases h
      exact .inr (congrArg _ (assertReset_refill k b n c (s := { s with pending := after }) hw))
    | host a =>
      refine .inl ⟨b, hostMove_refill k b n c (s := { s with pending := after }) (fun no r ha hr => ?_) h⟩
      subst ha
      simp only [hr, Bool.not_eq_true'] at hw
      exact hw

end

theorem unwrittenReads_all_written (i : Instr) {s : State} (h : s.written = ⟨true, .value, true, true⟩) :
    unwrittenReads i s = [] := by
  have hkey : unwritten s .key = false := by simp [unwritten, h]
  have hblk : unwritten s .blk = false := by simp [unwritten, h]
  have hlen : unwritten s .inLen = false := by simp [unwritten, h]
  have hcap : unwritten s .outCap = false := by simp [unwritten, h]
  cases i <;> simp [unwrittenReads, unwrittenReadsEnc, unwrittenReadsDec, hkey, hblk, hlen, hcap]

/-- Settles O59: the reset clauses are closed data, and commands and steps that reach no unwritten register commute with
refilling. -/
theorem unwrittenContentsMakeNoDifference : Obligations.UnwrittenContentsMakeNoDifference := by
  refine ⟨⟨rfl, rfl, rfl, rfl, rfl, rfl, rfl⟩, fun i s h => unwrittenReads_all_written i h, fun i s k b n c h => ?_,
    fun s t k b n c hw h => step_refill k b n c hw h⟩
  obtain ⟨t, ht, hother, hmsg⟩ := exec_refill k b n c h
  exact ⟨t, ht, hother, fun hi => by rw [hmsg hi, refill_own_blk k b n c t]⟩

end Sys2Proof.Machine
end

section
/-! PROOFS. The statements about the buffers and the RNG port: which commands draw, which bytes of `IN` and `OUT` a
command reaches, and what an idle host's buffer accesses move. -/

namespace Sys2Proof.Machine

open Sys2Proof

/-- A block command completes exactly while `BLK` holds a value, and its result is a function of `KEY`, the chaining
state and `BLK` (10_state.md R38). -/
theorem exec_block_next_iff {i : Instr} (hi : i = .teaEnc ∨ i = .teaDec ∨ i = .chainEnc ∨ i = .chainDec) :
    ∃ r : Key → Chain → Block → Block × Chain, ∀ s t, exec i s = .next t ↔
      s.written.blk ≠ .nothing ∧
        finish 8 (writeBlk (r s.key s.chain s.blk).1 { s with chain := (r s.key s.chain s.blk).2 }) = t := by
  suffices hr : ∃ r : Key → Chain → Block → Block × Chain, ∀ s : State, s.written.blk ≠ .nothing →
      exec i s = .next (finish 8 (writeBlk (r s.key s.chain s.blk).1 { s with chain := (r s.key s.chain s.blk).2 })) by
    obtain ⟨r, hr⟩ := hr
    refine ⟨r, fun s t => ?_⟩
    by_cases hb : s.written.blk = .nothing
    · simp [exec_block_fault hi hb, hb]
    · simp [hr s hb, hb]
  rcases hi with rfl | rfl | rfl | rfl
  · exact ⟨fun K c B => (encryptBlock B K, c), fun _ hb => exec_teaEnc hb⟩
  · exact ⟨fun K c B => (decryptBlock B K, c), fun _ hb => exec_teaDec hb⟩
  · exact ⟨chainEncStep, fun _ hb => exec_chainEnc hb⟩
  · exact ⟨chainDecStep, fun _ hb => exec_chainDec hb⟩

/-! ### Draws (20_memory.md R56) -/

theorem errField_endStatus_eq_zero_iff (code : StatusCode) : errField (endStatus code) = 0x0 ↔ code = .ok := by
  cases code <;> decide

/-- The RNG port of `t` is as `s` left it: no draw was taken. -/
def SameRng (s t : State) : Prop := t.rngQueue = s.rngQueue ∧ t.rngDrawn = s.rngDrawn

/-- MSG_ENC takes four draws and succeeds, or takes none and fails (44_message_codec.md R154). -/
theorem exec_msgEnc_draws {s t : State} (h : exec .msgEnc s = .next t) :
    errField t.status = 0x0 ∧ t.rngQueue = s.rngQueue.drop 4 ∧ t.rngDrawn = s.rngDrawn + 4 ∨
      errField t.status ≠ 0x0 ∧ SameRng s t := by
  rcases exec_msgEnc_cases s with ⟨code, res, -, hcode, he⟩ | ⟨-, -, he⟩ <;> rw [he] at h <;> cases h
  · have hne : code ≠ .ok := by rcases hcode with ⟨rfl, -⟩ | rfl <;> nofun
    exact .inr ⟨fun h0 => hne ((errField_endStatus_eq_zero_iff code).mp h0), rfl, rfl⟩
  · exact .inl ⟨(errField_endStatus_eq_zero_iff .ok).mpr rfl, by simp, by simp⟩

theorem exec_block_sameRng {i : Instr} {s t : State}
    (hi : i = .teaEnc ∨ i = .teaDec ∨ i = .chainEnc ∨ i = .chainDec) (h : exec i s = .next t) : SameRng s t := by
  obtain ⟨r, hr⟩ := exec_block_next_iff hi
  obtain ⟨-, rfl⟩ := (hr s t).mp h
  exact ⟨rfl, rfl⟩

theorem exec_msgDec_sameRng {s t : State} (h : exec .msgDec s = .next t) : SameRng s t := by
  rcases exec_msgDec_cases s with ⟨code, res, -, -, he⟩ | ⟨m, -, -, -, -, -, ⟨-, he⟩ | ⟨-, he⟩⟩ <;>
    rw [he] at h <;> cases h
  · exact ⟨rfl, rfl⟩
  · exact ⟨rfl, rfl⟩
  · exact ⟨rfl, rfl⟩

/-- No command but MSG_ENC draws (20_memory.md R56). -/
theorem exec_sameRng {i : Instr} {s t : State} (hi : i ≠ .msgEnc) (h : exec i s = .next t) : SameRng s t := by
  cases i with
  | teaEnc | teaDec | chainEnc | chainDec => exact exec_block_sameRng (by simp) h
  | chainInit => cases h; exact ⟨rfl, rfl⟩
  | msgEnc => exact absurd rfl hi
  | msgDec => exact exec_msgDec_sameRng h

/-- The RNG's move settles its bytes and changes nothing else (30_encoding.md R76). -/
theorem step_rng {s : State} {bs : List Byte} {after : List Move} (hp : s.pending = .rng bs :: after) :
    step s = .next { s with rngQueue := bs, pending := after } := by
  simp only [step, moveNext, hp]

/-- Settles O33: MSG_ENC by its outcome, the other commands by their not drawing, and the bytes drawn by
`drawFour_draws`. -/
theorem onlyMsgEncDraws : Obligations.OnlyMsgEncDraws := by
  refine ⟨fun i s t h => ?_, fun s hdr f a b rest hq => ?_, drawFour_draws, fun s bs after hp => step_rng hp⟩
  · by_cases hi : i = .msgEnc
    · subst hi
      exact (exec_msgEnc_draws h).imp (fun hok => ⟨rfl, hok⟩) fun ⟨herr, hrng⟩ => ⟨fun _ => herr, hrng⟩
    · exact .inr ⟨fun he => absurd he hi, exec_sameRng hi h⟩
  · rw [drawFour_draws, hq]
    rfl

/-! ### Commands and the bounds of the buffers (20_memory.md R51, R68) -/

/-- No byte at `OUT_CAP` or beyond changes. -/
theorem OutWithinCap.read_eq {s t : State} (h : OutWithinCap s t) {a : Nat} (ha : s.outCap.toNat ≤ a) :
    Memory.read t.outBuf a = Memory.read s.outBuf a := by
  obtain ⟨bs, hlen, hout⟩ := h
  rw [hout, Memory.read_writeBytes_outside bs _ 0 a (by omega)]

/-- A block command does not look at `IN`. -/
theorem exec_block_replace_inBuf {i : Instr} {s t : State} (m : Memory)
    (hi : i = .teaEnc ∨ i = .teaDec ∨ i = .chainEnc ∨ i = .chainDec) (h : exec i s = .next t) :
    exec i { s with inBuf := m } = .next { t with inBuf := m } := by
  obtain ⟨r, hr⟩ := exec_block_next_iff hi
  obtain ⟨hb, rfl⟩ := (hr s t).mp h
  exact (hr _ _).mpr ⟨hb, rfl⟩

section
variable {s t : State} {m : Memory}
  (hm : ∀ a, a < s.inLen.toNat → Memory.read m a = Memory.read s.inBuf a)
include hm

theorem exec_msgEnc_replace_inBuf (h : exec .msgEnc s = .next t) :
    exec .msgEnc { s with inBuf := m } = .next { t with inBuf := m } := by
  have hplan : encPlan { s with inBuf := m } = encPlan s := encPlan_congr s _ rfl rfl
  have hin : inOperand { s with inBuf := m } = inOperand s := inOperand_congr s _ rfl hm
  have hdraws : (drawFour { s with inBuf := m }).1 = (drawFour s).1 := by rw [drawFour_draws, drawFour_draws]
  rw [exec_msgEnc_eq] at h ⊢
  rw [hplan, hin, hdraws, drawFour_state]
  rw [drawFour_state] at h
  cases h
  cases encPlan s <;> rfl

theorem exec_msgDec_replace_inBuf (h : exec .msgDec s = .next t) :
    exec .msgDec { s with inBuf := m } = .next { t with inBuf := m } := by
  have hplan : decPlan { s with inBuf := m } = decPlan s := decPlan_congr s _ rfl rfl rfl rfl hm
  have hin : inOperand { s with inBuf := m } = inOperand s := inOperand_congr s _ rfl hm
  rw [exec_msgDec_eq] at h ⊢
  rw [hplan, hin]
  cases h
  cases decPlan s with
  | error e => rfl
  | ok p => cases trailerZero (decryptMessage s.key (inOperand s)) <;> rfl

/-- Another `IN` that agrees below `IN_LEN` makes no difference to a command (20_memory.md R51). -/
theorem exec_replace_inBuf {i : Instr} (h : exec i s = .next t) :
    exec i { s with inBuf := m } = .next { t with inBuf := m } := by
  cases i with
  | teaEnc | teaDec | chainEnc | chainDec => exact exec_block_replace_inBuf m (by simp) h
  | chainInit => cases h; rfl
  | msgEnc => exact exec_msgEnc_replace_inBuf hm h
  | msgDec => exact exec_msgDec_replace_inBuf hm h

end

/-- Settles O45, from where a command that completes ended and from what it reads of `IN`. -/
theorem commandsStayInBuffers : Obligations.CommandsStayInBuffers :=
  fun _ _ _ h => ⟨fun _ ha => (exec_next_commandEnd h).out.read_eq ha, fun _ hm => exec_replace_inBuf hm h⟩

/-! ### The idle host's buffer accesses (20_memory.md R50, R55) -/

/-- Each byte of a write is at its own offset of the window. -/
theorem Memory.read_writeBytes_inside {bs : List Byte} {k : Nat} {b : Byte} (h : bs[k]? = some b) (m : Memory)
    (off : Nat) :
    Memory.read (Memory.writeBytes m off bs) (off + k) = b := by
  obtain ⟨hk, rfl⟩ := List.getElem?_eq_some_iff.mp h
  rw [Memory.read_writeBytes, if_pos (by omega), Nat.add_sub_cancel_left, List.getD_eq_getElem _ _ hk]

/-- A buffer access whose offsets exist completes; its guard is written as the four accesses have it. -/
theorem next_of_offsetsExist {off n : Nat} (h : off + n ≤ 2 ^ 32) (u : State) :
    (if offsetsExist off n then .next u else .fault .noSuchOffset : Host.Outcome State Fault Refusal) = .next u :=
  if_pos ((offsetsExist_iff off n).mpr h)

/-- A buffer access past the last offset faults. -/
theorem fault_of_past_last_offset {off n : Nat} (h : 2 ^ 32 < off + n) (u : State) :
    (if offsetsExist off n then .next u else .fault .noSuchOffset : Host.Outcome State Fault Refusal) =
      .fault .noSuchOffset :=
  if_neg fun he => absurd ((offsetsExist_iff off n).mp he) (by omega)

/-- Settles O47: an idle host's step is its access, whose guard the window decides, and a write puts its bytes in the
window. -/
theorem hostMovesBufferBytes : Obligations.HostMovesBufferBytes := by
  intro s off n bs after hb
  have hstep {a : HostAction} (hp : s.pending = .host a :: after) : step s = hostAccess a { s with pending := after } :=
    step_host_idle hp hb
  have hinside (m : Memory) (k : Nat) (b : Byte) (hk : bs[k]? = some b) :
      Memory.read (Memory.writeBytes m off bs) (off + k) = b := Memory.read_writeBytes_inside hk m off
  have houtside (m : Memory) := Memory.read_writeBytes_outside bs m off
  refine ⟨fun hp hw => ?_, fun hp hw => ?_, fun hp hw => ?_, fun hp hw => ?_, fun hp hw => ?_, fun hp hw => ?_⟩
  · exact ⟨_, (hstep hp).trans (next_of_offsetsExist hw _), rfl, hinside s.inBuf, houtside s.inBuf⟩
  · exact ⟨_, (hstep hp).trans (next_of_offsetsExist hw _), rfl, hinside s.outBuf, houtside s.outBuf⟩
  · exact (hstep hp).trans (next_of_offsetsExist hw _)
  · exact (hstep hp).trans (next_of_offsetsExist hw _)
  · rcases hp with hp | hp <;> exact (hstep hp).trans (fault_of_past_last_offset hw _)
  · rcases hp with hp | hp <;> exact (hstep hp).trans (fault_of_past_last_offset hw _)

end Sys2Proof.Machine
end

section
/-! PROOFS. The statements about the encoding: the seven command words, the decoder as the encoder's inverse, and what a
reserved word does (30_encoding.md R70 to R72). -/

namespace Sys2Proof

/-- A command word is its `UNIT` followed by its `FUNC` (30_encoding.md R70). -/
theorem unitField_append_funcField (w : BitVec 8) : unitField w ++ funcField w = w := by
  revert w; decide +kernel

@[simp] theorem decodeWord_encode (i : Instr) : decodeWord (encode i) = .ok i := by
  cases i <;> rfl

/-- The decoder accepts a word only as the code of the command it answers: along each of its branches the two fields it
has tested are those of that code. -/
theorem decodeWord_eq_ok_iff (w : BitVec 8) (i : Instr) : decodeWord w = .ok i ↔ w = encode i := by
  refine ⟨fun h => ?_, fun h => h ▸ decodeWord_encode i⟩
  rw [← unitField_append_funcField w]
  simp only [decodeWord] at h
  split_ifs at h <;> cases h <;> simp only [*, encode]

theorem decodeWord_error_of_ne_ok {w : BitVec 8} (h : ∀ i, decodeWord w ≠ .ok i) : ∃ e, decodeWord w = .error e := by
  cases hd : decodeWord w with
  | ok i => exact absurd hd (h i)
  | error e => exact ⟨e, rfl⟩

/-- Bytes decode to the command whose code is the first of them, and leave the others. -/
theorem decodeBytes_cons_eq_ok_iff (w : BitVec 8) (bs rest : List Byte) (i : Instr) :
    decodeBytes (w :: bs) = .ok (i, rest) ↔ w = encode i ∧ bs = rest := by
  rw [← decodeWord_eq_ok_iff, decodeBytes]
  cases decodeWord w <;> simp

/-- The seven codes of 30_encoding.md R71. -/
theorem encode_mem_opcodes (i : Instr) :
    encode i ∈ [0x01#8, 0x02#8, 0x10#8, 0x11#8, 0x12#8, 0x20#8, 0x21#8] := by
  cases i <;> decide

/-- Settles O1: each of the seven words is a command's code, and only a code decodes. -/
theorem opcodeMapDecodes : Obligations.OpcodeMapDecodes := by
  refine ⟨decodeWord_encode .teaEnc, decodeWord_encode .teaDec, decodeWord_encode .chainInit,
    decodeWord_encode .chainEnc, decodeWord_encode .chainDec, decodeWord_encode .msgEnc, decodeWord_encode .msgDec,
    fun w i h => ?_⟩
  rw [(decodeWord_eq_ok_iff w i).mp h]
  exact encode_mem_opcodes i

/-- Settles O2, both halves being what decoding a first byte answers. -/
theorem decodeInvertsEncode : Obligations.DecodeInvertsEncode :=
  ⟨fun i rest => (decodeBytes_cons_eq_ok_iff (encode i) rest rest i).mpr ⟨rfl, rfl⟩,
    fun w i rest h => ((decodeBytes_cons_eq_ok_iff w rest rest i).mp h).1⟩

/-- No command's code lies in one of the reserved ranges (30_encoding.md R72). -/
theorem decodeWord_ne_ok_of_reserved {c : BitVec 8}
    (hc : c.toNat = 0x00 ∨ (0x03 ≤ c.toNat ∧ c.toNat ≤ 0x0F) ∨ (0x13 ≤ c.toNat ∧ c.toNat ≤ 0x1F) ∨ 0x22 ≤ c.toNat)
    (i : Instr) : decodeWord c ≠ .ok i := by
  rw [Ne, decodeWord_eq_ok_iff]
  rintro rfl
  revert hc
  cases i <;> decide

namespace Machine

/-- A run whose first step completes goes on from the state after it. -/
theorem core_run_succ {s t : State} (h : step s = .next t) (n : Nat) :
    Host.Core.run core (n + 1) s = Host.Core.run core n t := by
  have hstep : core.step s = .next t := h
  simp only [Host.Core.run, hstep]

theorem step_core {s : State} {after : List Move} (hp : s.pending = .core :: after) :
    step s = coreMove { s with pending := after } := by
  simp only [step, moveNext, hp]

/-- An idle host's write of `CMD` starts the command, whatever the byte (10_state.md R23). -/
theorem step_writeCmd {s : State} {c : BitVec 8} {after : List Move}
    (hp : s.pending = .host (.writeReg 0x00 (.byte c)) :: after) (hb : busyBit s.status = false) :
    step s = .next (startCommand c { s with pending := after }) :=
  (step_host_idle hp hb).trans (hostWriteReg_numberOfReg .cmd (.byte c) _)

/-- Settles O3: the write starts the word, the core's move reports it as illegal, and the state it leaves is idle. -/
theorem reservedCommandOnlyReports : Obligations.ReservedCommandOnlyReports := by
  intro s c after hc hb hp
  obtain ⟨e, hd⟩ := decodeWord_error_of_ne_ok (decodeWord_ne_ok_of_reserved hc)
  let u : State := startCommand c { s with pending := .core :: after }
  let t : State := illegalCommand { u with pending := after }
  have hwrite : step s = .next u := step_writeCmd hp hb
  have hcore : step u = .next t := (step_core rfl).trans (coreMove_reserved rfl hd)
  have hidle : busyBit t.status = false := busyBit_endStatus .illegalCommand
  have hrun : Host.Core.run core 2 s = .next t := (core_run_succ hwrite 1).trans (core_run_succ hcore 0)
  exact ⟨decodeWord_ne_ok_of_reserved hc, t, hrun, rfl, fun d later hafter => step_writeCmd (s := t) hafter hidle⟩

end Machine

end Sys2Proof
end

section
/-! PROOFS. The statements about the block transform: its rounds, that the two directions undo each other, its two
commands, and that only message commands reach the buffers and the RNG port. -/

namespace Sys2Proof.Machine

open Sys2Proof

/-! ### The words of a block (42_normalizer.md R121, R125) -/

@[simp] theorem wordToWire32_wire32ToWord (b0 b1 b2 b3 : Byte) :
    wordToWire32 (wire32ToWord b0 b1 b2 b3) = (b0, b1, b2, b3) := by
  have h0 : (b0 ++ b1 ++ b2 ++ b3).extractLsb' 24 8 = b0 := by
    rw [BitVec.extractLsb'_append_eq_of_le (by decide), BitVec.extractLsb'_append_eq_of_le (by decide)]
    exact BitVec.extractLsb'_append_eq_left
  have h1 : (b0 ++ b1 ++ b2 ++ b3).extractLsb' 16 8 = b1 := by
    rw [BitVec.extractLsb'_append_eq_of_le (by decide), BitVec.extractLsb'_append_eq_of_le (by decide)]
    exact BitVec.extractLsb'_append_eq_right
  have h2 : (b0 ++ b1 ++ b2 ++ b3).extractLsb' 8 8 = b2 := by
    rw [BitVec.extractLsb'_append_eq_of_le (by decide)]
    exact BitVec.extractLsb'_append_eq_right
  have h3 : (b0 ++ b1 ++ b2 ++ b3).extractLsb' 0 8 = b3 := BitVec.extractLsb'_append_eq_right
  rw [wire32ToWord_eq_append]
  exact Prod.ext h0 (Prod.ext h1 (Prod.ext h2 h3))

@[simp] theorem wire32ToWord_wordToWire32 (w : Word) :
    wire32ToWord (wordToWire32 w).1 (wordToWire32 w).2.1 (wordToWire32 w).2.2.1 (wordToWire32 w).2.2.2 = w := by
  rw [wire32ToWord_eq_append]
  simp only [wordToWire32]
  rw [BitVec.extractLsb'_append_extractLsb'_eq_extractLsb' (by rfl),
    BitVec.extractLsb'_append_extractLsb'_eq_extractLsb' (by rfl),
    BitVec.extractLsb'_append_extractLsb'_eq_extractLsb' (by rfl)]
  exact BitVec.extractLsb'_eq_self

@[simp] theorem wordsBlock_blockWords (B : Block) : wordsBlock (blockWords B).1 (blockWords B).2 = B := by
  simp [wordsBlock, blockWords]

@[simp] theorem blockWords_wordsBlock (y z : Word) : blockWords (wordsBlock y z) = (y, z) :=
  Prod.ext (wire32ToWord_wordToWire32 y) (wire32ToWord_wordToWire32 z)

/-! ### The rounds (41_block_transform.md R101, R102) -/

/-- A sequence that follows a function's steps runs through the function's iterates. -/
theorem iterate_eq_of_steps {α : Type} {f : α → α} {x : Nat → α} {n : Nat} (h : ∀ r < n, f (x r) = x (r + 1)) :
    f^[n] (x 0) = x n := by
  induction n with
  | zero => rfl
  | succ n ih =>
    rw [Function.iterate_succ_apply', ih fun r hr => h r (Nat.lt_succ_of_lt hr), h n (Nat.lt_succ_self n)]

/-- The accumulator as a multiple of DELTA. -/
def deltaTimes (n : Nat) : Word := BitVec.ofNat 32 (n * 0x9E3779B9)

theorem deltaTimes_zero : deltaTimes 0 = 0 := rfl

/-- Decryption starts from 16 × DELTA (00_scope.md R7). -/
theorem deltaTimes_sixteen : deltaTimes 16 = sumDec0 := by decide

theorem deltaTimes_succ (n : Nat) : deltaTimes (n + 1) = deltaTimes n + delta := by
  rw [deltaTimes, Nat.succ_mul, BitVec.ofNat_add]; rfl

/-- An encrypt round from the accumulator r × DELTA. -/
theorem encRound_deltaTimes (k : KeyWords) (r : Nat) {y z y' z' : Word}
    (hy : y' = y + roundF z (deltaTimes (r + 1)) k.a k.b) (hz : z' = z + roundF y' (deltaTimes (r + 1)) k.c k.d) :
    encRound k ⟨y, z, deltaTimes r⟩ = ⟨y', z', deltaTimes (r + 1)⟩ := by
  rw [hz, hy, deltaTimes_succ]; rfl

/-- A decrypt round from the accumulator (r + 1) × DELTA. -/
theorem decRound_deltaTimes (k : KeyWords) (r : Nat) {y z y' z' : Word}
    (hz : z' = z - roundF y (deltaTimes (r + 1)) k.c k.d) (hy : y' = y - roundF z' (deltaTimes (r + 1)) k.a k.b) :
    decRound k ⟨y, z, deltaTimes (r + 1)⟩ = ⟨y', z', deltaTimes r⟩ := by
  have hsum : deltaTimes (r + 1) - delta = deltaTimes r := by rw [deltaTimes_succ, BitVec.add_sub_cancel]
  rw [hy, hz, ← hsum]; rfl

/-- Settles O13: after r rounds the lanes hold `y r`, `z r` and r × DELTA. -/
theorem encryptBlockIsSixteenRounds : Obligations.EncryptBlockIsSixteenRounds := by
  intro B K y z h0 h
  have hround (r : Nat) (hr : r < 16) :
      encRound (keyWords K) ⟨y r, z r, deltaTimes r⟩ = ⟨y (r + 1), z (r + 1), deltaTimes (r + 1)⟩ := by
    obtain ⟨hy, hz⟩ := h r hr
    exact encRound_deltaTimes _ r hy hz
  have hrun : (encRound (keyWords K))^[16] ⟨y 0, z 0, deltaTimes 0⟩ = ⟨y 16, z 16, deltaTimes 16⟩ :=
    iterate_eq_of_steps (x := fun r => Lanes.mk (y r) (z r) (deltaTimes r)) hround
  rw [encryptBlock_eq, ← h0, ← deltaTimes_zero, hrun]

/-- Settles O14: after r rounds the lanes hold `y r`, `z r` and (16 - r) × DELTA. -/
theorem decryptBlockIsSixteenRounds : Obligations.DecryptBlockIsSixteenRounds := by
  intro B K y z h0 h
  have hround (r : Nat) (hr : r < 16) :
      decRound (keyWords K) ⟨y r, z r, deltaTimes (16 - r)⟩ = ⟨y (r + 1), z (r + 1), deltaTimes (16 - (r + 1))⟩ := by
    obtain ⟨hz, hy⟩ := h r hr
    have hpred : 16 - r = 16 - (r + 1) + 1 := by omega
    rw [hpred] at hz hy ⊢
    exact decRound_deltaTimes _ _ hz hy
  have hrun : (decRound (keyWords K))^[16] ⟨y 0, z 0, deltaTimes 16⟩ = ⟨y 16, z 16, deltaTimes 0⟩ :=
    iterate_eq_of_steps (x := fun r => Lanes.mk (y r) (z r) (deltaTimes (16 - r))) hround
  rw [decryptBlock_eq, ← h0, ← deltaTimes_sixteen, hrun]

/-! ### The two directions (41_block_transform.md R106) -/

/-- Decryption starts from the accumulator encryption ends with, and undoes it round by round. -/
@[simp] theorem decryptBlock_encryptBlock (B : Block) (K : Key) : decryptBlock (encryptBlock B K) K = B := by
  have hsum := encRound_iterate_sum (keyWords K) 16 ⟨(blockWords B).1, (blockWords B).2, 0⟩
  have hundo := Function.LeftInverse.iterate (decRound_encRound (keyWords K)) 16 ⟨(blockWords B).1, (blockWords B).2, 0⟩
  have hend : sumDec0 = 0 + BitVec.ofNat 32 (16 * 0x9E3779B9) := by decide
  rw [encryptBlock_eq, decryptBlock_eq, blockWords_wordsBlock, hend, ← hsum, hundo]
  exact wordsBlock_blockWords B

/-- Encryption starts from the accumulator decryption ends with, and undoes it round by round. -/
@[simp] theorem encryptBlock_decryptBlock (B : Block) (K : Key) : encryptBlock (decryptBlock B K) K = B := by
  have hsum := decRound_iterate_sum (keyWords K) 16 ⟨(blockWords B).1, (blockWords B).2, sumDec0⟩
  have hundo :=
    Function.LeftInverse.iterate (encRound_decRound (keyWords K)) 16 ⟨(blockWords B).1, (blockWords B).2, sumDec0⟩
  have hend : 0 = sumDec0 - BitVec.ofNat 32 (16 * 0x9E3779B9) := by decide
  rw [decryptBlock_eq, encryptBlock_eq, blockWords_wordsBlock, hend, ← hsum, hundo]
  exact wordsBlock_blockWords B

/-- Settles O15, one direction each. -/
theorem blockTransformInverse : Obligations.BlockTransformInverse :=
  fun B K => ⟨decryptBlock_encryptBlock B K, encryptBlock_decryptBlock B K⟩

/-! ### TEA_ENC and TEA_DEC (41_block_transform.md R104, R105) -/

/-- Settles O16, from the command's equation and the fault of the block commands. -/
theorem teaEncEncryptsBlk : Obligations.TeaEncEncryptsBlk :=
  fun _ => ⟨fun hb => ⟨_, exec_teaEnc hb, rfl⟩, exec_block_fault (.inl rfl)⟩

/-- Settles O17, from the command's equation and the fault of the block commands. -/
theorem teaDecDecryptsBlk : Obligations.TeaDecDecryptsBlk :=
  fun _ => ⟨fun hb => ⟨_, exec_teaDec hb, rfl⟩, exec_block_fault (.inr (.inl rfl))⟩

/-- A second result overwrites the first and its report. -/
theorem finish_writeBlk_finish_writeBlk (B C : Block) (m n : Nat) (s : State) :
    finish n (writeBlk C (finish m (writeBlk B s))) = finish n (writeBlk C s) := rfl

theorem exec_teaDec_after_teaEnc (s : State) :
    exec .teaDec (finish 8 (writeBlk (encryptBlock s.blk s.key) s)) = .next (finish 8 (writeBlk s.blk s)) := by
  rw [exec_teaDec (by simp), finish_writeBlk_finish_writeBlk]
  simp

theorem exec_teaEnc_after_teaDec (s : State) :
    exec .teaEnc (finish 8 (writeBlk (decryptBlock s.blk s.key) s)) = .next (finish 8 (writeBlk s.blk s)) := by
  rw [exec_teaEnc (by simp), finish_writeBlk_finish_writeBlk]
  simp

/-- Settles O18: each command's result is in `BLK` when the other starts. -/
theorem teaDecUndoesTeaEnc : Obligations.TeaDecUndoesTeaEnc :=
  fun s hb => ⟨⟨_, _, exec_teaEnc hb, exec_teaDec_after_teaEnc s, rfl⟩,
    _, _, exec_teaDec hb, exec_teaEnc_after_teaDec s, rfl⟩

/-! ### Commands that reach no buffer (20_memory.md R54) -/

theorem block_of_not_message {i : Instr} (hinit : i ≠ .chainInit) (henc : i ≠ .msgEnc) (hdec : i ≠ .msgDec) :
    i = .teaEnc ∨ i = .teaDec ∨ i = .chainEnc ∨ i = .chainDec := by
  cases i with
  | teaEnc | teaDec | chainEnc | chainDec => simp
  | chainInit => exact absurd rfl hinit
  | msgEnc => exact absurd rfl henc
  | msgDec => exact absurd rfl hdec

/-- Settles O46: a block command's result is a function of `KEY`, the chaining state and `BLK`, and CHAIN_INIT and an
illegal command read none of the replaced fields. -/
theorem onlyMessagesAccessBuffers : Obligations.OnlyMessagesAccessBuffers := by
  refine ⟨fun s m o q n => ⟨rfl, rfl, rfl, rfl, rfl⟩, fun i s m o q n henc hdec => ?_⟩
  by_cases hinit : i = .chainInit
  · subst hinit
    exact ⟨fun _ => ⟨_, exec_chainInit s, rfl, rfl, rfl, rfl, exec_chainInit _⟩, fun _ hne => absurd rfl hne⟩
  · have hi := block_of_not_message hinit henc hdec
    refine ⟨fun hb => ?_, fun hb _ => exec_block_fault hi hb⟩
    have hvalue : s.written.blk ≠ .nothing := hb.resolve_right hinit
    obtain ⟨r, hr⟩ := exec_block_next_iff hi
    exact ⟨_, (hr s _).mpr ⟨hvalue, rfl⟩, rfl, rfl, rfl, rfl, (hr _ _).mpr ⟨hvalue, rfl⟩⟩

end Sys2Proof.Machine
end

section
/-! PROOFS. The statements about the byte-order normalizer: wire order is most significant byte first, and each pair of
conversions is inverse (42_normalizer.md R121 to R125). -/

namespace Sys2Proof.Machine

open Sys2Proof

/-- A byte joined below a number is its least significant base-256 digit. -/
theorem toNat_append_byte {n : Nat} (x : BitVec n) (b : Byte) : (x ++ b).toNat = x.toNat * 2 ^ 8 + b.toNat := by
  rw [BitVec.toNat_append, ← Nat.shiftLeft_add_eq_or_of_lt b.isLt, Nat.shiftLeft_eq]

theorem toNat_wire32ToWord (b0 b1 b2 b3 : Byte) :
    (wire32ToWord b0 b1 b2 b3).toNat = b0.toNat * 2 ^ 24 + b1.toNat * 2 ^ 16 + b2.toNat * 2 ^ 8 + b3.toNat := by
  rw [wire32ToWord_eq_append, toNat_append_byte, toNat_append_byte, toNat_append_byte]
  ring

theorem toNat_wire16ToHalf (b0 b1 : Byte) : (wire16ToHalf b0 b1).toNat = b0.toNat * 2 ^ 8 + b1.toNat := by
  rw [wire16ToHalf_eq_append, toNat_append_byte]

@[simp] theorem halfToWire16_wire16ToHalf (b0 b1 : Byte) : halfToWire16 (wire16ToHalf b0 b1) = (b0, b1) := by
  rw [wire16ToHalf_eq_append]
  exact Prod.ext BitVec.extractLsb'_append_eq_left BitVec.extractLsb'_append_eq_right

@[simp] theorem wire16ToHalf_halfToWire16 (h : Half) : wire16ToHalf (halfToWire16 h).1 (halfToWire16 h).2 = h := by
  rw [wire16ToHalf_eq_append]
  simp only [halfToWire16]
  rw [BitVec.extractLsb'_append_extractLsb'_eq_extractLsb' (by rfl)]
  exact BitVec.extractLsb'_eq_self

/-- The bytes of the block of two words are the first word's wire bytes, then the second's. -/
theorem blockToBytes_wordsBlock (y z : Word) :
    blockToBytes (wordsBlock y z) =
      [(wordToWire32 y).1, (wordToWire32 y).2.1, (wordToWire32 y).2.2.1, (wordToWire32 y).2.2.2,
       (wordToWire32 z).1, (wordToWire32 z).2.1, (wordToWire32 z).2.2.1, (wordToWire32 z).2.2.2] := rfl

/-- Settles O10: a word's value from its bytes joined, and the two inverse laws. -/
theorem normalizerConversionsInvert : Obligations.NormalizerConversionsInvert :=
  ⟨fun b0 b1 b2 b3 => ⟨toNat_wire32ToWord b0 b1 b2 b3, wordToWire32_wire32ToWord b0 b1 b2 b3⟩,
    fun w => ⟨rfl, wire32ToWord_wordToWire32 w⟩⟩

/-- Settles O11: the positions are the views' definitions, and the views undo each other as the conversions do. -/
theorem wordViewsOfBlockAndKey : Obligations.WordViewsOfBlockAndKey :=
  ⟨fun _ => rfl, fun _ => ⟨rfl, rfl, rfl, rfl⟩, blockToBytes_wordsBlock, wordsBlock_blockWords,
    blockWords_wordsBlock⟩

/-- Settles O12: a half word's value from its bytes joined, and the two inverse laws. -/
theorem halfWordConversionsInvert : Obligations.HalfWordConversionsInvert :=
  ⟨fun b0 b1 => ⟨toNat_wire16ToHalf b0 b1, halfToWire16_wire16ToHalf b0 b1⟩,
    fun h => ⟨rfl, wire16ToHalf_halfToWire16 h⟩⟩

end Sys2Proof.Machine
end

section
/-! PROOFS. The statements about the chaining engine: its three commands, that a chain of decrypt steps undoes a chain of
encrypt steps, and that `BLK_COUNT` counts steps and does nothing else (43_chaining.md). -/

namespace Sys2Proof.Machine

open Sys2Proof

/-! ### The three commands (43_chaining.md R131 to R134) -/

/-- Settles O19, from the command's equation. -/
theorem chainInitZeroesChain : Obligations.ChainInitZeroesChain :=
  ⟨decodeWord_encode .chainInit, fun s => ⟨_, exec_chainInit s, rfl, rfl⟩⟩

/-- Settles O20, from the command's equation and the fault of the block commands. -/
theorem chainEncStepsChain : Obligations.ChainEncStepsChain := by
  refine ⟨?_, fun _ => exec_block_fault (.inr (.inr (.inl rfl)))⟩
  rintro s _ _ _ hb rfl rfl rfl
  exact ⟨_, exec_chainEnc hb, rfl⟩

/-- Settles O21, from the command's equation and the fault of the block commands. -/
theorem chainDecStepsChain : Obligations.ChainDecStepsChain := by
  refine ⟨?_, fun _ => exec_block_fault (.inr (.inr (.inr rfl)))⟩
  rintro s _ _ _ hb rfl rfl rfl
  exact ⟨_, exec_chainDec hb, rfl⟩

/-! ### The first block (43_chaining.md R138) -/

@[simp] theorem chainEncStep_zero_fst (K : Key) (B : Block) : (chainEncStep K Chain.zero B).1 = encryptBlock B K := by
  simp [chainEncStep, Chain.zero]

@[simp] theorem chainDecStep_zero_fst (K : Key) (B : Block) : (chainDecStep K Chain.zero B).1 = decryptBlock B K := by
  simp [chainDecStep, Chain.zero]

/-- Settles O22: both feedback registers are zero, and XOR with zero changes nothing. -/
theorem firstBlockIsDirect : Obligations.FirstBlockIsDirect := by
  intro s hb hzero
  have hchain : s.chain = Chain.zero := hzero
  exact ⟨⟨_, exec_chainEnc hb, by simp [hchain]⟩, _, exec_chainDec hb, by simp [hchain]⟩

/-! ### Host-driven runs (70_reset_and_hazards.md R239) -/

theorem driveSteps_cons {i : Instr} {B : Block} {s t u : State} {rest : List (Instr × Block)} {Bs : List Block}
    (h : exec i (writeBlk B s) = .next t) (hrest : driveSteps t rest = some (Bs, u)) :
    driveSteps s ((i, B) :: rest) = some (t.blk :: Bs, u) := by
  simp [driveSteps, h, nextState, hrest]

theorem driveChain_cons {i : Instr} {B : Block} {s t u : State} {rest Bs : List Block}
    (h : exec i (writeBlk B s) = .next t) (hrest : driveChain i t rest = some (Bs, u)) :
    driveChain i s (B :: rest) = some (t.blk :: Bs, u) :=
  driveSteps_cons h hrest

/-! ### Decrypt steps undo encrypt steps (43_chaining.md R135) -/

/-- From equal chaining states, the decrypt step on the block an encrypt step gave recovers the block it took, and the two
steps leave equal chaining states. -/
@[simp] theorem chainDecStep_chainEncStep (K : Key) (c : Chain) (P : Block) :
    chainDecStep K c (chainEncStep K c P).1 = (P, (chainEncStep K c P).2) := by
  simp [chainEncStep, chainDecStep]

/-- The host writes `BLK` and runs CHAIN_ENC: `BLK` and the chaining state are what the encrypt step gives. -/
theorem exec_chainEnc_writeBlk (P : Block) (s : State) :
    ∃ t, exec .chainEnc (writeBlk P s) = .next t ∧ t.key = s.key ∧ t.blk = (chainEncStep s.key s.chain P).1 ∧
      t.chain = (chainEncStep s.key s.chain P).2 :=
  ⟨_, exec_chainEnc (by simp), rfl, rfl, rfl⟩

/-- The host writes `BLK` and runs CHAIN_DEC: `BLK` and the chaining state are what the decrypt step gives. -/
theorem exec_chainDec_writeBlk (O : Block) (s : State) :
    ∃ t, exec .chainDec (writeBlk O s) = .next t ∧ t.key = s.key ∧ t.blk = (chainDecStep s.key s.chain O).1 ∧
      t.chain = (chainDecStep s.key s.chain O).2 :=
  ⟨_, exec_chainDec (by simp), rfl, rfl, rfl⟩

/-- Equal keys and equal chaining states are kept along the two runs, so each block is recovered in turn. -/
theorem driveChain_dec_after_enc (Ps : List Block) {s s' : State} (hkey : s'.key = s.key) (hchain : s'.chain = s.chain) :
    ∃ Os t t', driveChain .chainEnc s Ps = some (Os, t) ∧ Os.length = Ps.length ∧
      driveChain .chainDec s' Os = some (Ps, t') ∧ t'.chain = t.chain := by
  induction Ps generalizing s s' with
  | nil => exact ⟨[], s, s', rfl, rfl, rfl, hchain⟩
  | cons P Ps ih =>
    obtain ⟨u, henc, hukey, hublk, huchain⟩ := exec_chainEnc_writeBlk P s
    obtain ⟨u', hdec, hukey', hublk', huchain'⟩ := exec_chainDec_writeBlk u.blk s'
    rw [hkey, hchain, hublk, chainDecStep_chainEncStep] at hublk' huchain'
    obtain ⟨Os, t, t', hrun, hlen, hback, heq⟩ :=
      ih (show u'.key = u.key by rw [hukey', hukey, hkey]) (show u'.chain = u.chain by rw [huchain', huchain])
    have hrest := driveChain_cons hdec hback
    rw [hublk'] at hrest
    exact ⟨_, t, t', driveChain_cons henc hrun, by simp [hlen], hrest, heq⟩

/-- Settles O23: both runs start from the zero chaining state, and CHAIN_INIT keeps the keys. -/
theorem chainDecUndoesChainEnc : Obligations.ChainDecUndoesChainEnc := by
  intro s s' Ps hkey
  obtain ⟨Os, t, t', henc, hlen, hdec, hchain⟩ :=
    driveChain_dec_after_enc Ps (s := finish 0 { s with chain := Chain.zero })
      (s' := finish 0 { s' with chain := Chain.zero }) hkey rfl
  exact ⟨_, _, Os, t, t', exec_chainInit s, exec_chainInit s', henc, hlen, hdec, by rw [hchain], by rw [hchain],
    by rw [hchain]⟩

/-! ### The block counter (43_chaining.md R133) -/

/-- A chaining command of either kind is a step function of `KEY`, the chaining state and `BLK`. Of another
`BLK_COUNT` this function makes one more than that, and else gives the same. -/
theorem exec_chain_counts {i : Instr} (hi : i = .chainEnc ∨ i = .chainDec) :
    ∃ f : Key → Chain → Block → Block × Chain,
      (∀ s : State, s.written.blk ≠ .nothing →
        exec i s = .next (finish 8 (writeBlk (f s.key s.chain s.blk).1 { s with chain := (f s.key s.chain s.blk).2 }))) ∧
      ∀ K c B n, f K { c with blkCount := n } B = ((f K c B).1, { (f K c B).2 with blkCount := n + 1 }) := by
  rcases hi with rfl | rfl
  · exact ⟨chainEncStep, fun _ hb => exec_chainEnc hb, fun _ _ _ _ => by simp only [chainEncStep]⟩
  · exact ⟨chainDecStep, fun _ hb => exec_chainDec hb, fun _ _ _ _ => by simp only [chainDecStep]⟩

/-- A chaining command on a `BLK` that holds a value completes and counts one. -/
theorem exec_chain_blkCount {i : Instr} {s : State} (hi : i = .chainEnc ∨ i = .chainDec) (hb : s.written.blk ≠ .nothing) :
    ∃ t, exec i s = .next t ∧ t.chain.blkCount = s.chain.blkCount + 1 := by
  obtain ⟨f, hf, hcount⟩ := exec_chain_counts hi
  exact ⟨_, hf s hb, congrArg (fun r => r.2.blkCount) (hcount s.key s.chain s.blk s.chain.blkCount)⟩

/-- A run of chaining steps of both kinds completes, as the host writes `BLK` before each, and counts them. -/
theorem driveSteps_blkCount (steps : List (Instr × Block)) (hsteps : ∀ p ∈ steps, p.1 = .chainEnc ∨ p.1 = .chainDec)
    (s : State) :
    ∃ Os t, driveSteps s steps = some (Os, t) ∧ t.chain.blkCount = s.chain.blkCount + BitVec.ofNat 32 steps.length := by
  induction steps generalizing s with
  | nil => exact ⟨[], s, rfl, by simp⟩
  | cons p rest ih =>
    obtain ⟨hp, hrest⟩ := List.forall_mem_cons.mp hsteps
    obtain ⟨t, ht, hone⟩ := exec_chain_blkCount (s := writeBlk p.2 s) hp (by simp)
    obtain ⟨Os, u, hu, hall⟩ := ih hrest t
    refine ⟨_, u, driveSteps_cons ht hu, ?_⟩
    rw [hall, hone, writeBlk_chain, List.length_cons, BitVec.ofNat_add]
    ac_rfl

/-- Settles O24: a step counts one, so a run from the zero chaining state counts its length; and the step function of each
kind gives the same blocks whatever `BLK_COUNT` is. -/
theorem blockCounterCountsSteps : Obligations.BlockCounterCountsSteps := by
  refine ⟨fun i s t hi h => ?_, fun s s1 steps hsteps h => ?_, fun i s n hi hb => ?_⟩
  · have hb : s.written.blk ≠ .nothing := fun hn => by
      rw [exec_block_fault (.inr (.inr hi)) hn] at h; cases h
    obtain ⟨t', h', hone⟩ := exec_chain_blkCount hi hb
    rw [h] at h'; cases h'
    rw [hone]; exact BitVec.toNat_add _ _
  · rw [exec_chainInit] at h; cases h
    obtain ⟨Os, t, ht, hall⟩ := driveSteps_blkCount steps hsteps (finish 0 { s with chain := Chain.zero })
    exact ⟨Os, t, ht, by simp [hall, Chain.zero]⟩
  · obtain ⟨f, hf, hcount⟩ := exec_chain_counts hi
    have hother := hcount s.key s.chain s.blk n
    exact ⟨_, _, hf s hb, hf _ hb, (congrArg Prod.fst hother :), congrArg (fun r => r.2.prevOut) hother,
      congrArg (fun r => r.2.prevMix) hother⟩

end Sys2Proof.Machine
end

section
/-! PROOFS. The statements about the message codec's layout and streams: the fill count and the total, the source of each
layout byte, and the chaining recurrences from the zero state (44_message_codec.md R153 to R156, R161, R164, R171). -/

namespace Sys2Proof.Machine

open Sys2Proof

/-! ### The fill count and the total (44_message_codec.md R155, R156) -/

theorem fillCountOf_eq (L : Nat) : fillCountOf L = (8 - (L + 10) % 8) % 8 := rfl

theorem totalLength_eq (L : Nat) : totalLength L = L + fillCountOf L + 10 := by
  simp only [totalLength, extraRandom, trailerZeros]
  omega

/-- Settles O25, by arithmetic on the formula. -/
theorem fillCountIsLeast : Obligations.FillCountIsLeast := by
  refine ⟨fun L => ⟨rfl, fillCountOf_le L, ?_, fun m hm => ?_⟩, rfl, rfl⟩ <;> rw [fillCountOf_eq] <;> omega

/-- Settles O26, from N being at most 7, the total being a multiple of 8, and the layout being as long as the total. -/
theorem totalLengthBounds : Obligations.TotalLengthBounds := by
  intro L hL
  have heq := totalLength_eq L
  have hmod := totalLength_mod L
  have hle := fillCountOf_le L
  refine ⟨rfl, heq, hmod, by omega, by omega, by omega, fun d pt hpt => ?_⟩
  subst hpt
  rw [length_bytesToBlocks, length_layout_eq_total]

/-! ### The sources of the layout (44_message_codec.md R153) -/

section
variable (n : Nat) (d : Draws) (pt : List Byte)

theorem layout_eq :
    layout n d pt = headerByte n d.hdr :: (List.replicate n d.fill ++ d.a :: d.b :: (pt ++ List.replicate 7 0x00)) := by
  simp [layout, trailerZeros]

theorem layout_header : (layout n d pt)[0]? = some (headerByte n d.hdr) := rfl

theorem layout_fill {j : Nat} (h1 : 1 ≤ j) (hn : j ≤ n) : (layout n d pt)[j]? = some d.fill := by
  obtain ⟨k, rfl⟩ := Nat.exists_eq_add_of_le' h1
  rw [layout_eq, List.getElem?_cons_succ, List.getElem?_append_left (by simpa using hn),
    List.getElem?_replicate_of_lt hn]

/-- The bytes behind the fill: the two random bytes, the plaintext and the zeros. -/
theorem layout_after_fill (k : Nat) :
    (layout n d pt)[n + 1 + k]? = (d.a :: d.b :: (pt ++ List.replicate 7 0x00))[k]? := by
  rw [layout_eq, Nat.add_right_comm, List.getElem?_cons_succ, List.getElem?_append_right (by simp)]
  simp

theorem layout_plaintext {j : Nat} (h : j < pt.length) : (layout n d pt)[n + 3 + j]? = pt[j]? := by
  have hk : n + 3 + j = n + 1 + (j + 2) := by omega
  rw [hk, layout_after_fill, List.getElem?_cons_succ, List.getElem?_cons_succ, List.getElem?_append_left h]

theorem layout_trailer {j : Nat} (h : j < 7) : (layout n d pt)[n + 3 + pt.length + j]? = some 0x00 := by
  have hk : n + 3 + pt.length + j = n + 1 + (pt.length + j + 2) := by omega
  rw [hk, layout_after_fill, List.getElem?_cons_succ, List.getElem?_cons_succ, List.getElem?_append_right (by omega),
    Nat.add_sub_cancel_left, List.getElem?_replicate_of_lt h]

end

/-- Settles O28, source by source. -/
theorem layoutSources : Obligations.LayoutSources :=
  fun n d pt _ => ⟨length_layout n d pt, layout_header n d pt, fun _ => layout_fill n d pt, layout_after_fill n d pt 0,
    layout_after_fill n d pt 1, fun _ => layout_plaintext n d pt, fun _ => layout_trailer n d pt⟩

/-! ### The first ciphertext block (44_message_codec.md R164) -/

theorem bytesToBlocks_take_eight (bs : List Byte) : bytesToBlocks (bs.take 8) = (bytesToBlocks bs).take 1 := by
  cases hBs : bytesToBlocks bs with
  | nil =>
    have hlen := length_bytesToBlocks bs
    rw [hBs, List.length_nil] at hlen
    rw [List.take_of_length_le (by omega), hBs, List.take_nil]
  | cons B Bs =>
    revert hBs
    fun_cases bytesToBlocks bs with
    | case1 b0 b1 b2 b3 b4 b5 b6 b7 rest => rintro ⟨⟩; rfl
    | case2 => nofun

theorem take_eight_blocksToBytes (Bs : List Block) : (blocksToBytes Bs).take 8 = blocksToBytes (Bs.take 1) := by
  cases Bs with
  | nil => rfl
  | cons B Bs => rw [blocksToBytes_cons, List.take_append_of_le_length (by simp)]; simp

theorem take_one_chainEncAll (K : Key) (c : Chain) (Ps : List Block) :
    (chainEncAll K c Ps).1.take 1 = (chainEncAll K c (Ps.take 1)).1 := by
  cases Ps <;> rfl

/-- The first ciphertext block is that of the first 8 layout bytes. -/
theorem take_eight_encryptMessage (K : Key) (n : Nat) (d : Draws) (pt : List Byte) :
    (encryptMessage K n d pt).take 8 =
      blocksToBytes (chainEncAll K Chain.zero (bytesToBlocks ((layout n d pt).take 8))).1 := by
  rw [encryptMessage, take_eight_blocksToBytes, take_one_chainEncAll, bytesToBlocks_take_eight]

/-- The first 8 layout bytes hold the first 5 - N plaintext bytes, and zeros where the plaintext is shorter than that. -/
theorem take_eight_layout (n : Nat) (d : Draws) (pt : List Byte) :
    (layout n d pt).take 8 =
      (headerByte n d.hdr :: (List.replicate n d.fill ++ [d.a, d.b])).take 8 ++
        (pt.take (5 - n) ++ (List.replicate 7 0x00).take (5 - n - pt.length)) := by
  have hsplit : layout n d pt =
      (headerByte n d.hdr :: (List.replicate n d.fill ++ [d.a, d.b])) ++ (pt ++ List.replicate 7 0x00) := by
    simp [layout_eq]
  have hroom : 8 - (headerByte n d.hdr :: (List.replicate n d.fill ++ [d.a, d.b])).length = 5 - n := by
    simp only [List.length_cons, List.length_append, List.length_replicate, List.length_nil]
    omega
  rw [hsplit, List.take_append, hroom, List.take_append]

theorem take_eight_layout_congr (n : Nat) (d : Draws) {pt pt' : List Byte} (h : pt'.take (5 - n) = pt.take (5 - n)) :
    (layout n d pt').take 8 = (layout n d pt).take 8 := by
  have hlen : 5 - n - pt'.length = 5 - n - pt.length := by
    have := congrArg List.length h
    simp only [List.length_take] at this
    omega
  rw [take_eight_layout, take_eight_layout, h, hlen]

/-- Settles O27: the corner lengths from the formulas, and the first ciphertext block from the first 8 layout bytes. -/
theorem lengthCornerCases : Obligations.LengthCornerCases := by
  refine ⟨by decide, fun L => ⟨fun h => ?_, fun h => ?_⟩, fun K d n pt pt' _ _ h => ?_⟩
  · rw [fillCountOf_eq]; omega
  · rw [fillCountOf_eq]; omega
  · rw [take_eight_encryptMessage, take_eight_encryptMessage, take_eight_layout_congr n d h]

/-! ### The two streams (44_message_codec.md R161, R171) -/

/-- The encrypt steps from any chaining state follow the recurrence that starts with its two feedback registers. -/
theorem chainEncAll_getElem? (K : Key) (Ps : List Block) (c : Chain) (M O : Nat → Block) (hM : M 0 = c.prevMix)
    (hO : O 0 = c.prevOut)
    (h : ∀ k (hk : k < Ps.length), M (k + 1) = xor8 Ps[k] (O k) ∧ O (k + 1) = xor8 (encryptBlock (M (k + 1)) K) (M k)) :
    ∀ k, k < Ps.length → (chainEncAll K c Ps).1[k]? = some (O (k + 1)) := by
  induction Ps generalizing c M O with
  | nil => nofun
  | cons P Ps ih =>
    obtain ⟨hM1, hO1⟩ := h 0 (Nat.succ_pos _)
    have hstep : chainEncStep K c P = (O 1, ⟨O 1, M 1, c.blkCount + 1⟩) := by
      rw [hO1, hM1, hM, hO]; rfl
    rw [chainEncAll_cons, hstep]
    rintro (_ | k) hk
    · rfl
    · exact ih ⟨O 1, M 1, c.blkCount + 1⟩ (fun i => M (i + 1)) (fun i => O (i + 1)) rfl rfl
        (fun i hi => h (i + 1) (Nat.succ_lt_succ hi)) k (Nat.lt_of_succ_lt_succ hk)

/-- The decrypt steps from any chaining state follow the recurrence that starts with its two feedback registers. -/
theorem chainDecAll_getElem? (K : Key) (Os : List Block) (c : Chain) (M O : Nat → Block) (hM : M 0 = c.prevMix)
    (hO : O 0 = c.prevOut)
    (h : ∀ k (hk : k < Os.length), O (k + 1) = Os[k] ∧ M (k + 1) = decryptBlock (xor8 Os[k] (M k)) K) :
    ∀ k, k < Os.length → (chainDecAll K c Os).1[k]? = some (xor8 (M (k + 1)) (O k)) := by
  induction Os generalizing c M O with
  | nil => nofun
  | cons B Os ih =>
    obtain ⟨hO1, hM1⟩ := h 0 (Nat.succ_pos _)
    have hstep : chainDecStep K c B = (xor8 (M 1) (O 0), ⟨O 1, M 1, c.blkCount + 1⟩) := by
      rw [hO1, hM1, hM, hO]; rfl
    rw [chainDecAll_cons, hstep]
    rintro (_ | k) hk
    · rfl
    · exact ih ⟨O 1, M 1, c.blkCount + 1⟩ (fun i => M (i + 1)) (fun i => O (i + 1)) rfl rfl
        (fun i hi => h (i + 1) (Nat.succ_lt_succ hi)) k (Nat.lt_of_succ_lt_succ hk)

/-- Settles O29: the zero chaining state holds `M 0` and `O 0`. -/
theorem encryptStreamFollowsChain : Obligations.EncryptStreamFollowsChain :=
  fun K Ps M O hM hO h => ⟨length_chainEncAll K Chain.zero Ps, chainEncAll_getElem? K Ps Chain.zero M O hM hO h⟩

/-- Settles O30: the zero chaining state holds `M 0` and `O 0`. -/
theorem decryptStreamFollowsChain : Obligations.DecryptStreamFollowsChain :=
  fun K Os M O hM hO h => ⟨length_chainDecAll K Chain.zero Os, chainDecAll_getElem? K Os Chain.zero M O hM hO h⟩

end Sys2Proof.Machine
end

section
/-! PROOFS. The statements about MSG_ENC and MSG_DEC: what each check's failure reports, what a success writes, that the
two undo each other, and what their outcomes depend on (44_message_codec.md R150 to R182). -/

namespace Sys2Proof.Machine

open Sys2Proof

/-! ### MSG_ENC -/

theorem exec_msgEnc_of_error {s : State} {code : StatusCode} {res : Nat} (h : encPlan s = .error (code, res)) :
    exec .msgEnc s = .next (discardChain (raiseStatus code res s)) := by
  rw [exec_msgEnc_eq, h]

theorem exec_msgEnc_of_ok {s : State} {m : McState} (h : encPlan s = .ok m) :
    exec .msgEnc s =
      .next (discardChain (finish (totalLength s.inLen.toNat)
        (writeOut 0 (encryptMessage s.key (fillCountOf s.inLen.toNat) (drawFour s).1 (inOperand s)) (drawFour s).2))) := by
  obtain ⟨rfl, -⟩ := encPlan_ok h
  rw [exec_msgEnc_eq, h]

theorem encPlan_of_room {s : State} (h1 : 1 ≤ s.inLen.toNat) (hmax : s.inLen.toNat ≤ lMax)
    (hcap : totalLength s.inLen.toNat ≤ s.outCap.toNat) : ∃ m, encPlan s = .ok m := by
  rcases encPlan_cases s with ⟨hL, -⟩ | ⟨-, -, hc, -⟩ | ⟨-, -, -, h⟩
  · omega
  · omega
  · exact ⟨_, h⟩

theorem encPlan_of_no_room {s : State} (h1 : 1 ≤ s.inLen.toNat) (hmax : s.inLen.toNat ≤ lMax)
    (hcap : s.outCap.toNat < totalLength s.inLen.toNat) :
    encPlan s = .error (.bufferTooSmall, totalLength s.inLen.toNat) := by
  rcases encPlan_cases s with ⟨hL, -⟩ | ⟨-, -, -, h⟩ | ⟨-, -, hc, -⟩
  · omega
  · exact h
  · omega

/-- The total of the largest plaintext still fits `RES_LEN` (00_scope.md R6, 44_message_codec.md R156). -/
theorem totalLength_lt {L : Nat} (h : L ≤ lMax) : totalLength L < 2 ^ 32 := by
  have heq := totalLength_eq L
  have hle := fillCountOf_le L
  simp only [lMax] at h
  omega

theorem length_encryptMessage_inOperand (s : State) (K : Key) (d : Draws) :
    (encryptMessage K (fillCountOf s.inLen.toNat) d (inOperand s)).length = totalLength s.inLen.toNat := by
  have hlen := length_encryptMessage K d (inOperand s)
  rwa [length_inOperand] at hlen

/-- Settles O31, from the command's equation when its checks pass. -/
theorem msgEncEncryptsMessage : Obligations.MsgEncEncryptsMessage := by
  rintro s _ rfl h1 hmax hcap
  obtain ⟨m, hm⟩ := encPlan_of_room h1 hmax hcap
  have hlen := length_encryptMessage_inOperand s s.key (drawFour s).1
  refine ⟨_, exec_msgEnc_of_ok hm, rfl, Nat.mod_eq_of_lt (totalLength_lt hmax), ?_, fun a ha => ?_,
    by simp⟩
  · simp only [discardChain_outBuf, finish_outBuf, writeOut_outBuf, drawFour_outBuf]
    rw [← hlen]
    exact Memory.readBytes_writeBytes _ _ 0
  · simp only [discardChain_outBuf, finish_outBuf, writeOut_outBuf, drawFour_outBuf]
    exact Memory.read_writeBytes_outside _ _ 0 a (.inr (by omega))

/-- Settles O32: each check that fails reports and does nothing else. -/
theorem msgEncFailuresInOrder : Obligations.MsgEncFailuresInOrder := by
  rintro s _ rfl
  refine ⟨fun hL => ⟨_, exec_msgEnc_of_error (encPlan_of_bad_length hL), rfl, rfl, rfl, rfl, rfl⟩, fun h1 hmax hcap => ?_⟩
  exact ⟨_, exec_msgEnc_of_error (encPlan_of_no_room h1 hmax hcap), rfl, Nat.mod_eq_of_lt (totalLength_lt hmax),
    rfl, rfl, rfl⟩

/-! ### What MSG_DEC recovers (44_message_codec.md R167, R168, R171) -/

theorem toNat_and_hdrMask (b : Byte) : (b &&& hdrMask).toNat = b.toNat % 8 := by
  have hmask : hdrMask.toNat = 2 ^ 3 - 1 := rfl
  rw [BitVec.toNat_and, hmask, Nat.and_two_pow_sub_one_eq_mod]

theorem firstPlain_eq_firstRecovered (s : State) : firstPlain s.key s.inBuf = firstRecovered s := by
  rw [firstPlain_eq, chainDecStep_zero_fst, firstRecovered]

theorem recoveredN_eq (s : State) : recoveredN s = headerCount (firstRecovered s) := (toNat_and_hdrMask _).symm

theorem recoveredN_le (s : State) : recoveredN s ≤ 7 := by
  rw [recoveredN_eq]
  exact Nat.le_of_lt_succ (headerCount_lt _)

/-- The fill checker passes when the fill bytes 2 .. N are byte 1 (44_message_codec.md R168, R177). -/
theorem fillMismatch_eq_false_iff (P : Block) :
    fillMismatch P = false ↔
      ∀ j, 2 ≤ j → j ≤ headerCount P → (blockToBytes P)[j]? = (blockToBytes P)[1]? := by
  have hmem (b : Byte) : b ∈ ((blockToBytes P).take (headerCount P + 1)).drop 2 ↔
      ∃ i, 2 + i < headerCount P + 1 ∧ (blockToBytes P)[2 + i]? = some b := by
    simp only [List.mem_iff_getElem?, List.getElem?_drop, List.getElem?_take, Option.ite_none_right_eq_some]
  have hone : (blockToBytes P)[1]? = some P.b1 := rfl
  simp only [fillMismatch, Bool.and_eq_false_iff, decide_eq_false_iff_not, List.any_eq_false, hmem, bne_iff_ne, not_not,
    hone]
  constructor
  · rintro (hN | hall) j h2 hj
    · omega
    · have hlt : j < (blockToBytes P).length := hj.trans_lt (headerCount_lt P)
      have hget : (blockToBytes P)[j]? = some (blockToBytes P)[j] := List.getElem?_eq_getElem hlt
      rw [hget, hall (blockToBytes P)[j] ⟨j - 2, by omega, by rwa [Nat.add_sub_cancel' h2]⟩]
  · rintro h
    refine .inr fun b ⟨i, hi, hb⟩ => ?_
    rw [h (2 + i) (by omega) (by omega)] at hb
    exact (Option.some.inj hb).symm

theorem fillMismatch_firstRecovered (s : State) : fillMismatch (firstRecovered s) = false ↔ fillAgrees s := by
  rw [fillMismatch_eq_false_iff, fillAgrees, recoveredN_eq]

theorem length_recoveredLayout {s : State} (h8 : s.inLen.toNat % 8 = 0) :
    (recoveredLayout s).length = s.inLen.toNat := by
  have hlen := length_decryptMessage s.key (inOperand s)
  rw [length_inOperand] at hlen
  exact hlen h8

/-- The trailer check speaks of the recovered bytes at C - 7 and beyond (44_message_codec.md R173). -/
theorem trailerZero_iff (pl : List Byte) :
    trailerZero pl = true ↔ ∀ j b, pl.length - 7 ≤ j → pl[j]? = some b → b = 0x00 := by
  simp only [trailerZero, trailerZeros, List.all_eq_true, beq_iff_eq, List.mem_iff_getElem?, List.getElem?_drop]
  constructor
  · rintro h j b hj hb
    exact h b ⟨j - (pl.length - 7), by rwa [Nat.add_sub_cancel' hj]⟩
  · rintro h b ⟨i, hi⟩
    exact h _ b (Nat.le_add_right _ i) hi

theorem trailerZero_of_zeros {s : State} (h8 : s.inLen.toNat % 8 = 0)
    (hzero : ∀ j, s.inLen.toNat - 7 ≤ j → j < s.inLen.toNat → (recoveredLayout s)[j]? = some 0x00) :
    trailerZero (recoveredLayout s) = true := by
  have hlen := length_recoveredLayout h8
  rw [trailerZero_iff, hlen]
  intro j b hj hb
  obtain ⟨hlt, -⟩ := List.getElem?_eq_some_iff.mp hb
  rw [hzero j hj (by omega)] at hb
  exact (Option.some.inj hb).symm

/-! ### The checks of MSG_DEC (44_message_codec.md R166 to R170, R176) -/

/-- The checks of MSG_DEC on a legal length, in terms of what it recovers. -/
theorem decPlan_of_legal_length {s : State} (h16 : 16 ≤ s.inLen.toNat) (h8 : s.inLen.toNat % 8 = 0) :
    decPlan s =
      if fillMismatch (firstRecovered s) then .error (.integrityCheckFailed, 0)
      else if s.inLen.toNat < recoveredN s + 10 then .error (overrunCode s.cfg.overrun, 0)
      else if s.outCap.toNat < s.inLen.toNat - recoveredN s - 10 then
        .error (.bufferTooSmall, s.inLen.toNat - recoveredN s - 10)
      else .ok ⟨recoveredN s, s.inLen.toNat - recoveredN s - 10, 8, none, some (firstRecovered s), true⟩ := by
  have hlegal : ¬(s.inLen.toNat < minCt ∨ s.inLen.toNat % blockBytes ≠ 0) := by simp only [minCt, blockBytes]; omega
  rw [recoveredN_eq, ← firstPlain_eq_firstRecovered]
  exact if_neg hlegal

section
variable {s : State} (h16 : 16 ≤ s.inLen.toNat) (h8 : s.inLen.toNat % 8 = 0)
include h16 h8

theorem decPlan_of_fill_mismatch (hfill : ¬ fillAgrees s) : decPlan s = .error (.integrityCheckFailed, 0) := by
  rw [← fillMismatch_firstRecovered, Bool.not_eq_false] at hfill
  rw [decPlan_of_legal_length h16 h8, if_pos hfill]

variable (hfill : fillAgrees s)
include hfill

theorem decPlan_of_fillAgrees :
    decPlan s =
      if s.inLen.toNat < recoveredN s + 10 then .error (overrunCode s.cfg.overrun, 0)
      else if s.outCap.toNat < s.inLen.toNat - recoveredN s - 10 then
        .error (.bufferTooSmall, s.inLen.toNat - recoveredN s - 10)
      else .ok ⟨recoveredN s, s.inLen.toNat - recoveredN s - 10, 8, none, some (firstRecovered s), true⟩ := by
  rw [← fillMismatch_firstRecovered] at hfill
  rw [decPlan_of_legal_length h16 h8, if_neg (by simp [hfill])]

theorem decPlan_of_overrun (h : s.inLen.toNat < recoveredN s + 10) :
    decPlan s = .error (overrunCode s.cfg.overrun, 0) := by
  rw [decPlan_of_fillAgrees h16 h8 hfill, if_pos h]

variable (hN : recoveredN s + 10 ≤ s.inLen.toNat)
include hN

theorem decPlan_of_no_room (h : s.outCap.toNat < s.inLen.toNat - recoveredN s - 10) :
    decPlan s = .error (.bufferTooSmall, s.inLen.toNat - recoveredN s - 10) := by
  rw [decPlan_of_fillAgrees h16 h8 hfill, if_neg (by omega), if_pos h]

theorem decPlan_of_room (h : s.inLen.toNat - recoveredN s - 10 ≤ s.outCap.toNat) :
    decPlan s = .ok ⟨recoveredN s, s.inLen.toNat - recoveredN s - 10, 8, none, some (firstRecovered s), true⟩ := by
  rw [decPlan_of_fillAgrees h16 h8 hfill, if_neg (by omega), if_neg (by omega)]

end

theorem exec_msgDec_of_error {s : State} {code : StatusCode} {res : Nat} (h : decPlan s = .error (code, res)) :
    exec .msgDec s = .next (discardChain (raiseStatus code res s)) := by
  rw [exec_msgDec_eq, h]

theorem exec_msgDec_of_trailerZero {s : State} {m : McState} (h : decPlan s = .ok m)
    (ht : trailerZero (recoveredLayout s) = true) :
    exec .msgDec s =
      .next (discardChain (finish m.total (writeOut 0 (copyWindow m.fillCount m.total (recoveredLayout s)) s))) := by
  rw [exec_msgDec_eq, h]
  exact congrArg (fun t => Host.Outcome.next (discardChain t)) (if_pos ht)

theorem exec_msgDec_of_not_trailerZero {s : State} {m : McState} (h : decPlan s = .ok m)
    (ht : trailerZero (recoveredLayout s) = false) :
    exec .msgDec s = .next (discardChain (raiseStatus .integrityCheckFailed 0 (freeOut m.total s))) := by
  have ht' : ¬trailerZero (decryptMessage s.key (inOperand s)) = true := Bool.eq_false_iff.mp ht
  rw [exec_msgDec_eq, h]
  exact congrArg (fun t => Host.Outcome.next (discardChain t)) (if_neg ht')

/-- Settles O34: the length check does not look at `IN`. -/
theorem msgDecRejectsLength : Obligations.MsgDecRejectsLength :=
  fun s m h => ⟨_, exec_msgDec_of_error (decPlan_of_bad_length h), rfl, rfl, rfl,
    exec_msgDec_of_error (decPlan_of_bad_length (s := { s with inBuf := m }) h)⟩

/-- Settles O35: the fill check reports and does nothing else. -/
theorem msgDecChecksFill : Obligations.MsgDecChecksFill :=
  fun _ h16 h8 hfill => ⟨_, exec_msgDec_of_error (decPlan_of_fill_mismatch h16 h8 hfill), rfl, rfl, rfl⟩

/-- Settles O36: the overrun check reports and does nothing else, and N is at most 7. -/
theorem msgDecChecksOverrun : Obligations.MsgDecChecksOverrun := by
  refine ⟨rfl, fun L hN => ?_, fun s h16 h8 hfill => ⟨?_, fun h => ?_⟩⟩
  · have heq := totalLength_eq L
    have hmod := totalLength_mod L
    omega
  · have hN := recoveredN_le s
    omega
  · refine ⟨_, exec_msgDec_of_error (decPlan_of_overrun h16 h8 hfill h), fun hp => ?_, fun hp => ?_, rfl, rfl⟩ <;>
      rw [hp] <;> rfl

/-- Settles O37: the capacity check reports Lout and does nothing else. -/
theorem msgDecChecksCapacity : Obligations.MsgDecChecksCapacity := by
  intro s h16 h8 hfill hN hcap
  have hlt := s.inLen.isLt
  exact ⟨_, exec_msgDec_of_error (decPlan_of_no_room h16 h8 hfill hN hcap), rfl, Nat.mod_eq_of_lt (by omega), rfl⟩

/-! ### The end of MSG_DEC (44_message_codec.md R172 to R175, R178) -/

theorem getElem?_freeBytes {k n a : Nat} (h : a < n) : (freeBytes k n)[a]? = some (Config.freeByte (k + a)) := by
  simp [freeBytes, h]

theorem getElem?_copyWindow {n len a : Nat} (pl : List Byte) (h : a < len) :
    (copyWindow n len pl)[a]? = pl[n + 3 + a]? := by
  rw [copyWindow, List.getElem?_take_of_lt h, List.getElem?_drop, extraRandom]
  congr 1; omega

/-- Settles O38: a non-zero trailer leaves free bytes where the plaintext would stand. -/
theorem msgDecChecksTrailer : Obligations.MsgDecChecksTrailer := by
  rintro s _ h16 h8 hfill hN rfl hcap ⟨j, b, hj, hb, hne⟩
  have ht : trailerZero (recoveredLayout s) = false := by
    rw [Bool.eq_false_iff, Ne, trailerZero_iff, length_recoveredLayout h8]
    exact fun h => hne (h j b hj hb)
  refine ⟨_, exec_msgDec_of_not_trailerZero (decPlan_of_room h16 h8 hfill hN hcap) ht, rfl, rfl, fun a ha => ?_,
    fun a ha => ?_⟩
  · have hread := Memory.read_writeBytes_inside (getElem?_freeBytes (k := s.fresh) ha) s.outBuf 0
    rwa [Nat.zero_add] at hread
  · exact Memory.read_writeBytes_outside _ _ 0 a (.inr (by simpa using ha))

/-- Settles O39: a zero trailer lets the copy window stand in `OUT`. -/
theorem msgDecRecoversPlaintext : Obligations.MsgDecRecoversPlaintext := by
  rintro s n h16 h8 hfill hN hn hcap hzero
  have hlen := length_recoveredLayout h8
  have hlt := s.inLen.isLt
  have ht := trailerZero_of_zeros h8 hzero
  subst hn
  have hfit : s.inLen.toNat - recoveredN s - 10 < 2 ^ 32 := by omega
  refine ⟨_, exec_msgDec_of_trailerZero (decPlan_of_room h16 h8 hfill hN hcap) ht, rfl, Nat.mod_eq_of_lt hfit,
    fun a ha => ?_, fun a ha => ?_, rfl, rfl, rfl, rfl, rfl, rfl, rfl, rfl, rfl, rfl, rfl⟩
  · obtain ⟨b, hb⟩ : ∃ b, (recoveredLayout s)[recoveredN s + 3 + a]? = some b :=
      ⟨_, List.getElem?_eq_getElem (by omega)⟩
    have hread := Memory.read_writeBytes_inside ((getElem?_copyWindow _ ha).trans hb) s.outBuf 0
    rw [Nat.zero_add] at hread
    rw [hb]
    exact congrArg some hread.symm
  · refine Memory.read_writeBytes_outside _ _ 0 a (.inr ?_)
    rw [Nat.zero_add]
    exact (List.length_take_le _ _).trans ha

/-- Settles O40: the copy window is empty when Lout is 0; and T = 16 with N = 6 leaves no plaintext. -/
theorem msgDecAcceptsZeroLength : Obligations.MsgDecAcceptsZeroLength := by
  refine ⟨fun s hC h6 hfill hzero => ?_, fun L hL ⟨hT, hN⟩ => ?_⟩
  · have hlout : s.inLen.toNat - recoveredN s - 10 = 0 := by omega
    have hplan := decPlan_of_room (s := s) (by omega) (by omega) hfill (by omega) (by omega)
    rw [hlout] at hplan
    have ht : trailerZero (recoveredLayout s) = true :=
      trailerZero_of_zeros (by omega) fun j hj hlt => hzero j (by omega) (by omega)
    exact ⟨_, exec_msgDec_of_trailerZero hplan ht, rfl, rfl, rfl⟩
  · have heq := totalLength_eq L
    omega

/-! ### MSG_DEC undoes MSG_ENC (44_message_codec.md R180) -/

/-- The decrypt steps recover the blocks from equal chaining states (43_chaining.md R135). -/
theorem chainDecAll_chainEncAll (K : Key) (c : Chain) (Ps : List Block) :
    (chainDecAll K c (chainEncAll K c Ps).1).1 = Ps := by
  induction Ps generalizing c with
  | nil => rfl
  | cons P Ps ih =>
    rw [chainEncAll_cons, chainDecAll_cons, chainDecStep_chainEncStep]
    exact congrArg _ (ih _)

theorem decryptMessage_encryptMessage (K : Key) (d : Draws) (pt : List Byte) :
    decryptMessage K (encryptMessage K (fillCountOf pt.length) d pt) = layout (fillCountOf pt.length) d pt := by
  have hwhole : (layout (fillCountOf pt.length) d pt).length % 8 = 0 := by
    rw [length_layout_eq_total, totalLength_mod]
  rw [decryptMessage, encryptMessage, bytesToBlocks_blocksToBytes, chainDecAll_chainEncAll,
    blocksToBytes_bytesToBlocks _ hwhole]

/-- The recovered layout begins with the first recovered block (44_message_codec.md R167, R171). -/
theorem recoveredLayout_getElem?_lt_eight {s : State} (h : 8 ≤ s.inLen.toNat) {j : Nat} (hj : j < 8) :
    (recoveredLayout s)[j]? = (blockToBytes (firstRecovered s))[j]? := by
  obtain ⟨q, hq⟩ : ∃ q, s.inLen.toNat / 8 = q + 1 := ⟨s.inLen.toNat / 8 - 1, by omega⟩
  rw [recoveredLayout, Memory.bytesToBlocks_readBytes, hq, List.range_succ_eq_map, List.map_cons, chainDecAll_cons,
    blocksToBytes_cons, List.getElem?_append_left hj, ← firstPlain_eq_firstRecovered]
  rfl

/-- The header's low 3 bits are N: the draw gives only the other 5 (44_message_codec.md R153). -/
theorem toNat_headerByte_mod {n : Nat} (h : n ≤ 7) (hdr : Byte) : (headerByte n hdr).toNat % 8 = n := by
  have hclear : ~~~hdrMask &&& hdrMask = 0#8 := rfl
  rw [← toNat_and_hdrMask, headerByte, BitVec.and_or_distrib_right, BitVec.and_assoc, hclear, BitVec.and_zero,
    BitVec.zero_or, toNat_and_hdrMask, BitVec.toNat_ofNat]
  omega

section
variable {u : State} {n : Nat} {d : Draws} {pt : List Byte} (h : recoveredLayout u = layout n d pt) (hn : n ≤ 7)
  (h8 : 8 ≤ u.inLen.toNat)
include h hn h8

theorem recoveredN_of_layout : recoveredN u = n := by
  have hb0 : some (firstRecovered u).b0 = some (headerByte n d.hdr) := by
    rw [← layout_header n d pt, ← h, recoveredLayout_getElem?_lt_eight h8 (by omega)]
    rfl
  rw [recoveredN, Option.some.inj hb0, toNat_headerByte_mod hn]

theorem fillAgrees_of_layout : fillAgrees u := by
  intro j h2 hj
  rw [recoveredN_of_layout h hn h8] at hj
  rw [← recoveredLayout_getElem?_lt_eight h8 (by omega), ← recoveredLayout_getElem?_lt_eight h8 (by omega), h,
    layout_fill n d pt (by omega) hj, layout_fill n d pt (by omega) (by omega)]

end

theorem trailer_of_layout {u : State} {n : Nat} {d : Draws} {pt : List Byte} (h : recoveredLayout u = layout n d pt)
    (hlen : u.inLen.toNat = pt.length + n + 10) {j : Nat} (hj : u.inLen.toNat - 7 ≤ j) (hjC : j < u.inLen.toNat) :
    (recoveredLayout u)[j]? = some 0x00 := by
  obtain ⟨k, rfl⟩ := Nat.exists_eq_add_of_le (show n + 3 + pt.length ≤ j by omega)
  rw [h, layout_trailer n d pt (by omega)]

/-- A state whose `IN` holds the ciphertext of a plaintext recovers the layout of that plaintext. -/
theorem recoveredLayout_of_ciphertext {u : State} {L : Nat} {d : Draws} {pt : List Byte} {m : Memory}
    (hpt : pt.length = L) (hlen : u.inLen.toNat = totalLength L)
    (hct : Memory.readBytes m 0 (totalLength L) = encryptMessage u.key (fillCountOf L) d pt)
    (hin : ∀ a, a < totalLength L → Memory.read u.inBuf a = Memory.read m a) :
    recoveredLayout u = layout (fillCountOf L) d pt := by
  subst hpt
  have hread : Memory.readBytes u.inBuf 0 (totalLength pt.length) = Memory.readBytes m 0 (totalLength pt.length) :=
    Memory.readBytes_congr _ _ _ _ fun a ha => by rw [Nat.zero_add]; exact hin a ha
  rw [← decryptMessage_encryptMessage u.key, ← hct, ← hread, recoveredLayout, decryptMessage, hlen]

/-- Settles O41: `IN` of the second state recovers the layout, which passes every check of MSG_DEC, and whose copy window
is the plaintext. -/
theorem messageRoundTrip : Obligations.MessageRoundTrip := by
  intro s t u L hL h1 hmax hcap ht hkey hlen hroom hin
  obtain ⟨t', ht', hstatus, hres, hct, -⟩ := msgEncEncryptsMessage s L hL h1 hmax hcap
  rw [ht] at ht'
  cases ht'
  have hpt : (Memory.readBytes s.inBuf 0 L).length = L := Memory.length_readBytes _ _ _
  have hC : u.inLen.toNat = totalLength L := by rw [hlen, hres]
  have heq := totalLength_eq L
  have hmod := totalLength_mod L
  have hle := fillCountOf_le L
  have hlay := recoveredLayout_of_ciphertext hpt hC (hkey ▸ hct) hin
  have hN := recoveredN_of_layout hlay hle (by omega)
  obtain ⟨v, hv, hvstatus, hvres, hvout, -⟩ := msgDecRecoversPlaintext u L (by omega) (by omega)
    (fillAgrees_of_layout hlay hle (by omega)) (by omega) (by omega) hroom
    fun j => trailer_of_layout hlay (by omega)
  refine ⟨hstatus, hres, v, hv, hvstatus, hvres, fun a ha => ?_⟩
  have hbyte := hvout a ha
  rw [hN, hlay, layout_plaintext _ _ _ (by omega), List.getElem?_eq_getElem (by omega), Memory.getElem_readBytes,
    Nat.zero_add] at hbyte
  exact (Option.some.inj hbyte).symm

/-! ### What the outcomes depend on (44_message_codec.md R152, R182) -/

theorem exec_msgDec_report_congr {s s' t t' : State} (hplan : decPlan s' = decPlan s)
    (hmsg : decryptMessage s'.key (inOperand s') = decryptMessage s.key (inOperand s)) (h : exec .msgDec s = .next t)
    (h' : exec .msgDec s' = .next t') : t'.status = t.status ∧ t'.resLen = t.resLen := by
  rw [exec_msgDec_eq] at h h'
  rw [hplan, hmsg] at h'
  cases h
  cases h'
  cases decPlan s with
  | error e => exact ⟨rfl, rfl⟩
  | ok m => cases trailerZero (decryptMessage s.key (inOperand s)) <;> exact ⟨rfl, rfl⟩

/-- Equal checks and an equal ciphertext give equal reports, and on success equal bytes of `OUT`. -/
theorem exec_msgEnc_report_congr {s s' t t' : State} (hplan : encPlan s' = encPlan s) (hlen : s'.inLen = s.inLen)
    (hmsg : encryptMessage s'.key (fillCountOf s.inLen.toNat) (drawFour s').1 (inOperand s') =
      encryptMessage s.key (fillCountOf s.inLen.toNat) (drawFour s).1 (inOperand s))
    (h : exec .msgEnc s = .next t) (h' : exec .msgEnc s' = .next t') :
    t'.status = t.status ∧ t'.resLen = t.resLen ∧
      (t.status = 0x10 → ∀ a, a < t.resLen.toNat → Memory.read t'.outBuf a = Memory.read t.outBuf a) := by
  rcases exec_msgEnc_cases s with ⟨code, res, herr, hcode, he⟩ | ⟨hok, hcap, he⟩
  · rw [he] at h
    rw [exec_msgEnc_of_error (hplan.trans herr)] at h'
    cases h
    cases h'
    refine ⟨rfl, rfl, fun hst => ?_⟩
    rcases hcode with ⟨rfl, -⟩ | rfl <;> cases hst
  · have htot : totalLength s.inLen.toNat < 2 ^ 32 := hcap.trans_lt s.outCap.isLt
    rw [he] at h
    rw [exec_msgEnc_of_ok (hplan.trans hok), hlen, hmsg] at h'
    cases h
    cases h'
    refine ⟨rfl, rfl, fun _ a ha => ?_⟩
    have hct := length_encryptMessage_inOperand s s.key (drawFour s).1
    simp only [discardChain_resLen, finish_resLen, BitVec.toNat_ofNat, Nat.mod_eq_of_lt htot] at ha
    simp only [discardChain_outBuf, finish_outBuf, writeOut_outBuf, Memory.read_writeBytes]
    rw [if_pos (by omega), if_pos (by omega)]

/-- Settles O42: the checks and the messages depend on the named inputs only. -/
theorem equalInputsReportEqually : Obligations.EqualInputsReportEqually := by
  intro s s' t t' hkey hlen hcap hcfg hin
  have hop := inOperand_congr s s' hlen hin
  refine ⟨exec_msgDec_report_congr (decPlan_congr s s' hkey hlen hcap hcfg hin) (by rw [hkey, hop]),
    fun h h' hdraws => ?_⟩
  exact exec_msgEnc_report_congr (encPlan_congr s s' hlen hcap) hlen (by rw [hkey, hdraws, hop]) h h'

section
variable (s : State) (c : Chain) (B : Block)

theorem exec_msgEnc_replace_chain_blk : exec .msgEnc { s with chain := c, blk := B } = exec .msgEnc s := by
  have hplan : encPlan { s with chain := c, blk := B } = encPlan s := encPlan_congr s _ rfl rfl
  have hdraws : (drawFour { s with chain := c, blk := B }).1 = (drawFour s).1 := by rw [drawFour_draws, drawFour_draws]
  rw [exec_msgEnc_eq, exec_msgEnc_eq, hplan, hdraws, drawFour_state, drawFour_state]
  cases encPlan s <;> rfl

theorem exec_msgDec_replace_chain_blk : exec .msgDec { s with chain := c, blk := B } = exec .msgDec s := by
  have hplan : decPlan { s with chain := c, blk := B } = decPlan s := decPlan_congr s _ rfl rfl rfl rfl fun _ _ => rfl
  cases h : decPlan s with
  | error e => rw [exec_msgDec_of_error h, exec_msgDec_of_error (hplan.trans h)]; rfl
  | ok m =>
    cases ht : trailerZero (recoveredLayout s) with
    | false => rw [exec_msgDec_of_not_trailerZero h ht, exec_msgDec_of_not_trailerZero (hplan.trans h) ht]; rfl
    | true => rw [exec_msgDec_of_trailerZero h ht, exec_msgDec_of_trailerZero (hplan.trans h) ht]; rfl

end

/-- Settles O43: the checks, the draws and the message do not look at the chaining state or `BLK`, and every end of a
message command discards both. -/
theorem messagesIgnoreOldChain : Obligations.MessagesIgnoreOldChain := by
  rintro _ s c B (rfl | rfl)
  · exact exec_msgEnc_replace_chain_blk s c B
  · exact exec_msgDec_replace_chain_blk s c B

end Sys2Proof.Machine
end

section
/-! PROOFS. The statements about how a command ends: it ends in its one step, and reports one of its own codes with the
length that goes with it (60_exceptions.md R200 to R208). -/

namespace Sys2Proof.Machine

open Sys2Proof

/-! ### The end of a command (60_exceptions.md R200, R211) -/

@[simp] theorem doneBit_endStatus (code : StatusCode) : doneBit (endStatus code) = true := by
  cases code <;> decide

@[simp] theorem reservedBits_endStatus (code : StatusCode) : reservedBits (endStatus code) = 0 := by
  cases code <;> decide

@[simp] theorem errField_endStatus (code : StatusCode) : errField (endStatus code) = errNumber code := by
  cases code <;> decide

theorem exec_block_completes {i : Instr} {s : State}
    (hi : i = .teaEnc ∨ i = .teaDec ∨ i = .chainEnc ∨ i = .chainDec) (hb : s.written.blk ≠ .nothing) :
    ∃ t, exec i s = .next t := by
  obtain ⟨r, hr⟩ := exec_block_next_iff hi
  exact ⟨_, (hr s _).mpr ⟨hb, rfl⟩⟩

/-- Every command completes, but for a block command on a `BLK` that holds no value (10_state.md R38). -/
theorem exec_completes {i : Instr} {s : State}
    (h : s.written.blk ≠ .nothing ∨ i = .chainInit ∨ i = .msgEnc ∨ i = .msgDec) : ∃ t, exec i s = .next t := by
  cases i with
  | teaEnc | teaDec | chainEnc | chainDec =>
    have hb : s.written.blk ≠ .nothing := by simpa using h
    exact exec_block_completes (by simp) hb
  | chainInit => exact ⟨_, exec_chainInit s⟩
  | msgEnc => exact ⟨_, exec_msgEnc s⟩
  | msgDec => exact ⟨_, exec_msgDec s⟩

/-- Which of the host's registers are written, the moves to come and the host's record are in `t` as in `s`; of `BLK`
nothing is said, since commands write it and take its value (10_state.md R43). -/
structure SameHostRecord (s t : State) : Prop where
  writtenKey : t.written.key = s.written.key
  writtenInLen : t.written.inLen = s.written.inLen
  writtenOutCap : t.written.outCap = s.written.outCap
  pending : t.pending = s.pending
  observed : t.observed = s.observed

theorem MessageWork.sameHostRecord {s u : State} (h : MessageWork s u) : SameHostRecord s u := by
  rw [h.frame]
  exact ⟨rfl, rfl, rfl, rfl, rfl⟩

theorem exec_sameHostRecord {i : Instr} {s t : State} (h : exec i s = .next t) : SameHostRecord s t := by
  rcases exec_next_cases h with ⟨B, c, rfl⟩ | rfl | ⟨u, code, res, hu, rfl⟩
  · exact ⟨rfl, rfl, rfl, rfl, rfl⟩
  · exact ⟨rfl, rfl, rfl, rfl, rfl⟩
  · obtain ⟨hkey, hlen, hcap, hpending, hobserved⟩ := hu.sameHostRecord
    exact ⟨hkey, hlen, hcap, hpending, hobserved⟩

/-- Settles O7, from where a command that completes ended and from what it leaves of the host's side. -/
theorem everyCommandEndsInOneStep : Obligations.EveryCommandEndsInOneStep := by
  refine fun i s => ⟨fun hi => ?_, fun hb hinit henc hdec => exec_block_fault (block_of_not_message hinit henc hdec) hb⟩
  obtain ⟨t, ht⟩ := exec_completes hi
  have hend := exec_next_commandEnd ht
  have hrec := exec_sameHostRecord ht
  obtain ⟨code, hcode⟩ := hend.status
  refine ⟨t, ht, ?_, ?_, ?_, hend.running, hend.bt, hend.mc, hend.key, hend.inLen, hend.outCap, hend.inBuf,
    hrec.writtenKey, hrec.writtenInLen, hrec.writtenOutCap, hrec.pending, hrec.observed, hend.cfg⟩
  · rw [hcode, busyBit_endStatus]
  · rw [hcode, doneBit_endStatus]
  · rw [hcode, reservedBits_endStatus]

/-! ### What each command reports (60_exceptions.md R201 to R206) -/

theorem exec_block_report {i : Instr} {s t : State}
    (hi : i = .teaEnc ∨ i = .teaDec ∨ i = .chainEnc ∨ i = .chainDec) (h : exec i s = .next t) :
    errField t.status = 0x0 ∧ t.resLen = 8 := by
  obtain ⟨r, hr⟩ := exec_block_next_iff hi
  obtain ⟨-, rfl⟩ := (hr s t).mp h
  exact ⟨errField_endStatus .ok, rfl⟩

theorem exec_chainInit_report {s t : State} (h : exec .chainInit s = .next t) :
    errField t.status = 0x0 ∧ t.resLen = 0 := by
  rw [exec_chainInit] at h
  cases h
  exact ⟨errField_endStatus .ok, rfl⟩

/-- MSG_ENC reports T on success and where `OUT` is too small for it, and 0 on a length it rejects (44_message_codec.md
R157 to R160, R162). -/
theorem exec_msgEnc_report {s t : State} (h : exec .msgEnc s = .next t) :
    (errField t.status = 0x0 ∨ errField t.status = 0x3) ∧ t.resLen.toNat = totalLength s.inLen.toNat ∨
      errField t.status = 0x1 ∧ t.resLen = 0 := by
  rcases encPlan_cases s with ⟨-, he⟩ | ⟨-, hmax, -, he⟩ | ⟨-, hmax, -, he⟩
  · rw [exec_msgEnc_of_error he] at h
    cases h
    exact .inr ⟨errField_endStatus .invalidInput, rfl⟩
  · rw [exec_msgEnc_of_error he] at h
    cases h
    exact .inl ⟨.inr (errField_endStatus .bufferTooSmall), Nat.mod_eq_of_lt (totalLength_lt hmax)⟩
  · rw [exec_msgEnc_of_ok he] at h
    cases h
    exact .inl ⟨.inl (errField_endStatus .ok), Nat.mod_eq_of_lt (totalLength_lt hmax)⟩

/-- The overrun's code is one of the two that `OVERRUN_STATUS` names (44_message_codec.md R169). -/
theorem errNumber_overrunCode (o : OverrunStatus) :
    errNumber (overrunCode o) = 0x2 ∨ errNumber (overrunCode o) = 0x4 := by
  cases o
  · exact .inr rfl
  · exact .inl rfl

/-- MSG_DEC reports Lout on success and where `OUT` is too small for it, and 0 on every other failure
(44_message_codec.md R166 to R170, R174, R178). -/
theorem exec_msgDec_report {s t : State} (h : exec .msgDec s = .next t) :
    (errField t.status = 0x0 ∨ errField t.status = 0x3) ∧ t.resLen.toNat = s.inLen.toNat - recoveredN s - 10 ∨
      (errField t.status = 0x2 ∨ errField t.status = 0x4) ∧ t.resLen = 0 := by
  have hfit : s.inLen.toNat - recoveredN s - 10 < 2 ^ 32 := by omega
  rw [recoveredN_eq, ← firstPlain_eq_firstRecovered] at hfit ⊢
  rcases decPlan_cases s with ⟨-, he⟩ | ⟨-, -, -, he⟩ | ⟨-, -, -, -, he⟩ | ⟨-, -, -, -, -, he⟩ | ⟨-, -, -, -, -, hok⟩
  · rw [exec_msgDec_of_error he] at h
    cases h
    exact .inr ⟨.inl (errField_endStatus .invalidLength), rfl⟩
  · rw [exec_msgDec_of_error he] at h
    cases h
    exact .inr ⟨.inr (errField_endStatus .integrityCheckFailed), rfl⟩
  · rw [exec_msgDec_of_error he] at h
    cases h
    refine .inr ⟨?_, rfl⟩
    rw [discardChain_status, raiseStatus_status, errField_endStatus]
    exact errNumber_overrunCode s.cfg.overrun
  · rw [exec_msgDec_of_error he] at h
    cases h
    exact .inl ⟨.inr (errField_endStatus .bufferTooSmall), Nat.mod_eq_of_lt hfit⟩
  · cases ht : trailerZero (recoveredLayout s) with
    | true =>
      rw [exec_msgDec_of_trailerZero hok ht] at h
      cases h
      exact .inl ⟨.inl (errField_endStatus .ok), Nat.mod_eq_of_lt hfit⟩
    | false =>
      rw [exec_msgDec_of_not_trailerZero hok ht] at h
      cases h
      exact .inr ⟨.inr (errField_endStatus .integrityCheckFailed), rfl⟩

/-- A failure other than `BUFFER_TOO_SMALL` reports no length (60_exceptions.md R205). -/
theorem exec_failure_resLen {i : Instr} {s t : State} (h : exec i s = .next t) (hok : errField t.status ≠ 0x0)
    (hsmall : errField t.status ≠ 0x3) : t.resLen = 0 := by
  have hreported : ¬(errField t.status = 0x0 ∨ errField t.status = 0x3) := not_or.mpr ⟨hok, hsmall⟩
  cases i with
  | teaEnc | teaDec | chainEnc | chainDec => exact absurd (exec_block_report (by simp) h).1 hok
  | chainInit => exact absurd (exec_chainInit_report h).1 hok
  | msgEnc => exact ((exec_msgEnc_report h).resolve_left fun hlen => hreported hlen.1).2
  | msgDec => exact ((exec_msgDec_report h).resolve_left fun hlen => hreported hlen.1).2

/-- Settles O8, from what each command reports. -/
theorem statusCodesOfEachCommand : Obligations.StatusCodesOfEachCommand := by
  refine fun i s t h => ⟨fun hi => exec_block_report hi h, ?_, ?_, ?_, ?_, ?_, exec_failure_resLen h⟩
  · rintro rfl
    exact exec_chainInit_report h
  · rintro rfl
    rcases exec_msgEnc_report h with ⟨hcode | hcode, -⟩ | ⟨hcode, -⟩ <;> simp [hcode]
  · rintro rfl
    rcases exec_msgDec_report h with ⟨hcode | hcode, -⟩ | ⟨hcode | hcode, -⟩ <;> simp [hcode]
  · rintro rfl hcode
    refine ((exec_msgEnc_report h).resolve_right fun ⟨hother, _⟩ => ?_).2
    simp [hother] at hcode
  · rintro rfl hcode
    refine ((exec_msgDec_report h).resolve_right fun ⟨hother, _⟩ => ?_).2
    rcases hother with hother | hother <;> simp [hother] at hcode

end Sys2Proof.Machine
end

section
/-! PROOFS. The statements about commands and reset in time: a `CMD` write starts a command, the core's step runs it,
a busy core answers only reads of `STATUS`, a command ends, and reset abandons it (70_reset_and_hazards.md R230 to
R237). -/

namespace Sys2Proof.Machine

open Sys2Proof

/-! ### Whose step it is (70_reset_and_hazards.md R236) -/

theorem step_no_moves {s : State} (hp : s.pending = []) : step s = coreMove s := by
  simp only [step, moveNext, hp]

/-- While the host waits for a running command, the core moves. -/
theorem step_wait_running {s : State} {c : BitVec 8} {after : List Move} (hp : s.pending = .wait :: after)
    (hr : s.running = some c) : step s = coreMove s := by
  simp only [step, moveNext, hp, waitMove, hr]

/-- With no command running, a wait is over once `DONE = 1` and `BUSY = 0` (30_encoding.md R76). -/
theorem step_wait_done {s : State} {after : List Move} (hp : s.pending = .wait :: after) (hr : s.running = none)
    (hdone : doneBit s.status = true) (hbusy : busyBit s.status = false) :
    step s = .next { s with pending := after } := by
  simp [step, moveNext, hp, waitMove, hr, hdone, hbusy]

theorem step_reset {s : State} {after : List Move} (hp : s.pending = .reset :: after) :
    step s = .next (assertReset { s with pending := after }) := by
  simp only [step, moveNext, hp]

/-- Settles O4: in each case the step is the core's move, which is `exec` of the decoded command. -/
theorem coreStepRunsDecodedCommand : Obligations.CoreStepRunsDecodedCommand := by
  refine fun s c i hr hd => ⟨fun after hp => ?_, fun after hp => ?_, fun hp => ?_⟩
  · rw [step_core hp]
    exact coreMove_decoded (s := { s with pending := after }) hr hd
  · rw [step_wait_running hp hr]
    exact coreMove_decoded hr hd
  · rw [step_no_moves hp]
    exact coreMove_decoded hr hd

/-- A command's code in the opcode table's numbering of bits is the one byte `encode` gives (30_encoding.md R71). -/
theorem tableBytes_encode (i : Instr) : tableBytes 8 (encode i).toNat = [encode i] := by
  cases i <;> rfl

theorem withFetchWord_encode (s : State) (i : Instr) :
    s.withFetchWord 8 (encode i).toNat = placeCommand (encode i) s := by
  rw [State.withFetchWord, placeTableWord, Nat.mod_eq_of_lt (encode i).isLt, BitVec.ofNat_toNat, BitVec.setWidth_eq]

theorem decodeTableWord_encode (i : Instr) : decodeTableWord 8 (encode i).toNat = some i := by
  have hdec : decodeBytes [encode i] = .ok (i, []) := (decodeBytes_cons_eq_ok_iff _ _ _ i).mpr ⟨rfl, rfl⟩
  rw [decodeTableWord, tableBytes_encode, hdec]

/-- Settles O5: the placed byte is the command's code, and the placed core move runs it. -/
theorem placedCommandRunsNext : Obligations.PlacedCommandRunsNext := by
  refine fun s i => ⟨decodeTableWord_encode i, ?_⟩
  rw [withFetchWord_encode, step_core (s := placeCommand (encode i) s) rfl]
  exact coreMove_decoded rfl (decodeWord_encode i)

theorem busyStatus_fields : busyBit busyStatus = true ∧ doneBit busyStatus = false ∧ errField busyStatus = 0x0 := by
  decide

/-- Settles O6: the write is the start of the command, whose `STATUS` is 0x20. -/
theorem commandWriteStartsCommand : Obligations.CommandWriteStartsCommand :=
  fun _ _ _ hb hp => ⟨_, step_writeCmd hp hb, rfl, busyStatus_fields⟩

/-! ### A busy core (70_reset_and_hazards.md R237) -/

theorem allowedWhileBusy_iff (a : HostAction) : allowedWhileBusy a = true ↔ a = .readReg 0x01 := by
  cases a <;> simp [allowedWhileBusy, numberOfReg]

/-- A read of `STATUS` records it, whether or not a command runs. -/
theorem step_readStatus {s : State} {after : List Move} (hp : s.pending = .host (.readReg 0x01) :: after) :
    step s = .next { s with pending := after, observed := .reg (.byte s.status) :: s.observed } := by
  have hallowed : allowedWhileBusy (.readReg 0x01) = true := (allowedWhileBusy_iff _).mpr rfl
  rw [step_host hp, hostMove, hallowed, Bool.not_true, Bool.and_false, if_neg Bool.false_ne_true]
  exact hostReadReg_value (r := .status) (s := { s with pending := after }) rfl rfl

/-- Settles O48: only a read of `STATUS` is allowed while busy, and it records the value. -/
theorem busyCoreRefusesAccess : Obligations.BusyCoreRefusesAccess := by
  refine fun s a after hb hp => ⟨fun ha => ?_, fun ha => step_readStatus (ha ▸ hp)⟩
  have hrefused : allowedWhileBusy a = false := by rwa [← Bool.not_eq_true, allowedWhileBusy_iff]
  rw [step_host hp, hostMove, hrefused]
  exact if_pos (by simp [hb])

/-! ### A running command ends (70_reset_and_hazards.md R235, R236) -/

/-- The command byte `c` is not a block command's, or `BLK` holds a value for it (10_state.md R38). -/
def BlkServes (c : BitVec 8) (s : State) : Prop :=
  s.written.blk = .nothing → c ∉ [0x01#8, 0x02#8, 0x11#8, 0x12#8]

theorem exec_completes_of_blkServes {s : State} {c : BitVec 8} {i : Instr} (hd : decodeWord c = .ok i)
    (hblk : BlkServes c s) : ∃ t, exec i s = .next t := by
  obtain rfl : c = encode i := (decodeWord_eq_ok_iff c i).mp hd
  by_cases hb : s.written.blk = .nothing
  · have hbyte := hblk hb
    cases i with
    | teaEnc | teaDec | chainEnc | chainDec => exact absurd (by simp [encode]) hbyte
    | chainInit | msgEnc | msgDec => exact exec_completes (by simp)
  · exact exec_completes (.inl hb)

/-- The core's move ends a running command, reserved words too, and leaves the moves to come and the host's record as
they were. -/
theorem coreMove_ends {s : State} {c : BitVec 8} (hr : s.running = some c)
    (hblk : BlkServes c s) :
    ∃ t, coreMove s = .next t ∧ CommandEnd s t ∧ SameHostRecord s t := by
  cases hd : decodeWord c with
  | ok i =>
    obtain ⟨t, ht⟩ := exec_completes_of_blkServes hd hblk
    exact ⟨t, (coreMove_decoded hr hd).trans ht, exec_next_commandEnd ht, exec_sameHostRecord ht⟩
  | error e =>
    exact ⟨_, coreMove_reserved hr hd, commandEnd_illegalCommand s, rfl, rfl, rfl, rfl, rfl⟩

/-- Settles O54: the write, the core's move during the wait, and the wait's end. -/
theorem waitEndsEveryCommand : Obligations.WaitEndsEveryCommand := by
  intro s c after hb hblk hp
  let u : State := startCommand c { s with pending := .wait :: after }
  have hwrite : step s = .next u := step_writeCmd hp hb
  obtain ⟨v, hv, hend, hrec⟩ := coreMove_ends (s := u) rfl hblk
  have hcore : step u = .next v := (step_wait_running rfl rfl).trans hv
  obtain ⟨code, hcode⟩ := hend.status
  have hdone : doneBit v.status = true := by rw [hcode, doneBit_endStatus]
  have hbusy : busyBit v.status = false := by rw [hcode, busyBit_endStatus]
  have hover : step v = .next { v with pending := after } := step_wait_done hrec.pending hend.running hdone hbusy
  have hrun : Host.Core.run core 3 s = .next { v with pending := after } :=
    (core_run_succ hwrite 2).trans ((core_run_succ hcore 1).trans (core_run_succ hover 0))
  exact ⟨_, hrun, rfl, hend.running, hbusy, hdone, hrec.observed⟩

/-- From `s`, no command runs after at most `m` steps. -/
def EndsWithin (m : Nat) (s : State) : Prop :=
  ∃ n t, n ≤ m ∧ Host.Core.run core n s = .next t ∧ t.running = none

theorem endsWithin_of_not_running {s : State} (h : s.running = none) (m : Nat) : EndsWithin m s :=
  ⟨0, s, Nat.zero_le m, rfl, h⟩

theorem EndsWithin.of_step {s t : State} {m : Nat} (ht : EndsWithin m t) (h : step s = .next t) :
    EndsWithin (m + 1) s := by
  obtain ⟨n, u, hn, hrun, hu⟩ := ht
  exact ⟨n + 1, u, Nat.succ_le_succ hn, (core_run_succ h n).trans hrun, hu⟩

/-- A step that is the core's move on a running command ends it. -/
theorem endsWithin_of_coreMove {s u : State} {c : BitVec 8} (h : step s = coreMove u) (hr : u.running = some c)
    (hblk : BlkServes c u) (m : Nat) : EndsWithin (m + 1) s := by
  obtain ⟨t, ht, hend, -⟩ := coreMove_ends hr hblk
  exact (endsWithin_of_not_running hend.running m).of_step (h.trans ht)

/-- A running command ends within the moves to come and one step more: the core's move or a reset ends it, and a read of
`STATUS` or the RNG's move leaves it running with one move less to come. -/
theorem running_endsWithin {s : State} {c : BitVec 8} {moves : List Move} (hp : s.pending = moves)
    (hr : s.running = some c) (hhost : ∀ a, .host a ∈ moves → a = .readReg 0x01)
    (hblk : BlkServes c s) : EndsWithin (moves.length + 1) s := by
  induction moves generalizing s with
  | nil => exact endsWithin_of_coreMove (step_no_moves hp) hr hblk _
  | cons move after ih =>
    have hafter : ∀ a, .host a ∈ after → a = .readReg 0x01 := fun a ha => hhost a (.tail _ ha)
    cases move with
    | core => exact endsWithin_of_coreMove (step_core hp) hr hblk _
    | wait => exact endsWithin_of_coreMove (step_wait_running hp hr) hr hblk _
    | reset => exact (endsWithin_of_not_running rfl _).of_step (step_reset hp)
    | rng bs =>
      let u : State := { s with rngQueue := bs, pending := after }
      exact (ih (s := u) rfl hr hafter hblk).of_step (step_rng hp)
    | host a =>
      obtain rfl := hhost a (.head _)
      let u : State := { s with pending := after, observed := .reg (.byte s.status) :: s.observed }
      exact (ih (s := u) rfl hr hafter hblk).of_step (step_readStatus hp)

/-- Settles O60, by induction on the moves to come. -/
theorem runningCommandEnds : Obligations.RunningCommandEnds := by
  intro s _ hrunning hhost hblk
  obtain ⟨c, hr⟩ := Option.ne_none_iff_exists'.mp hrunning
  exact running_endsWithin rfl hr hhost fun hb hc => hblk hb c hc hr

/-! ### Reset (70_reset_and_hazards.md R230, R232) -/

theorem outReach_pending (i : Instr) (s : State) (after : List Move) :
    outReach i { s with pending := after } = outReach i s := by
  cases i <;> rfl

theorem outReach_of_not_message {i : Instr} (henc : i ≠ .msgEnc) (hdec : i ≠ .msgDec) (s : State) :
    outReach i s = 0 := by
  cases i with
  | teaEnc | teaDec | chainInit | chainEnc | chainDec => rfl
  | msgEnc => exact absurd rfl henc
  | msgDec => exact absurd rfl hdec

/-- Abandoning a command that could have written no byte of `OUT` changes nothing. -/
theorem abandonCommand_of_outReach_zero {s : State}
    (h : ∀ c i, s.running = some c → decodeWord c = .ok i → outReach i s = 0) : abandonCommand s = s := by
  rcases abandonCommand_cases s with he | ⟨c, i, hr, hd, hreach, -⟩
  · exact he
  · exact absurd (h c i hr hd) hreach

/-- The bytes of `OUT` that the abandoned command could have written are free. -/
theorem abandonCommand_outBuf {s : State} {c : BitVec 8} {i : Instr} (hr : s.running = some c)
    (hd : decodeWord c = .ok i) :
    (abandonCommand s).outBuf = Memory.writeBytes s.outBuf 0 (freeBytes s.fresh (outReach i s)) := by
  simp only [abandonCommand, hr, hd]
  split
  · next hreach => rw [hreach]; rfl
  · rw [abandonDraws_outBuf, freeOut_outBuf]

theorem read_abandonCommand_inside {s : State} {c : BitVec 8} {i : Instr} {a : Nat} (hr : s.running = some c)
    (hd : decodeWord c = .ok i) (ha : a < outReach i s) :
    Memory.read (abandonCommand s).outBuf a = Config.freeByte (s.fresh + a) := by
  rw [abandonCommand_outBuf hr hd]
  simpa only [Nat.zero_add] using Memory.read_writeBytes_inside (getElem?_freeBytes (k := s.fresh) ha) s.outBuf 0

theorem read_abandonCommand_outside {s : State} {c : BitVec 8} {i : Instr} {a : Nat} (hr : s.running = some c)
    (hd : decodeWord c = .ok i) (ha : outReach i s ≤ a) :
    Memory.read (abandonCommand s).outBuf a = Memory.read s.outBuf a := by
  rw [abandonCommand_outBuf hr hd]
  exact Memory.read_writeBytes_outside _ _ 0 a (by simpa using ha)

/-- The RNG port after a command is abandoned: up to four draws are gone, and any only for a MSG_ENC whose checks pass
(log 7). -/
theorem abandonCommand_draws (s : State) :
    ∃ k ≤ 4, (k ≠ 0 → s.running = some 0x20 ∧ outReach .msgEnc s ≠ 0) ∧
      (abandonCommand s).rngQueue = s.rngQueue.drop k ∧ (abandonCommand s).rngDrawn = s.rngDrawn + k := by
  rcases abandonCommand_cases s with h | ⟨c, i, hr, hd, hreach, h⟩ <;> rw [h]
  · exact ⟨0, Nat.zero_le 4, fun h0 => absurd rfl h0, rfl, rfl⟩
  · rcases abandonDraws_cases i (freeOut (outReach i s) s) with ⟨-, h'⟩ | ⟨k, hk, rfl, h'⟩ <;> rw [h']
    · exact ⟨0, Nat.zero_le 4, fun h0 => absurd rfl h0, rfl, rfl⟩
    · obtain rfl : c = 0x20 := (decodeWord_eq_ok_iff c .msgEnc).mp hd
      exact ⟨k, hk, fun _ => ⟨hr, hreach⟩, rfl, rfl⟩

/-- The whole state after reset: the registers' reset values, and around them what abandoning the command left. -/
theorem assertReset_eq (s : State) :
    assertReset s =
      { State.reset with
        inBuf := s.inBuf, outBuf := (abandonCommand s).outBuf, rngQueue := (abandonCommand s).rngQueue
        rngDrawn := (abandonCommand s).rngDrawn, fresh := (abandonCommand s).fresh
        pending := s.pending, observed := s.observed, cfg := s.cfg } := by
  have hwork := messageWork_abandonCommand s
  have hrec := hwork.sameHostRecord
  rw [assertReset, resetRegisters, hwork.inBuf, hwork.cfg, hrec.pending, hrec.observed]

/-- Settles O56: reset is the reset registers around what abandoning the command left of `OUT` and the RNG port. -/
theorem resetAbandonsCommand : Obligations.ResetAbandonsCommand := by
  intro s after hp
  let u : State := { s with pending := after }
  obtain ⟨k, hk, hdrawn, hqueue, hcount⟩ := abandonCommand_draws u
  have hout (i : Instr) : outReach i u = outReach i s := outReach_pending i s after
  refine ⟨assertReset u, k, step_reset hp, ?_, hk, fun h0 => ?_, fun a ha => ?_, fun hother => ?_,
    fun c i hr hd => ⟨fun a ha => ?_, fun a ha => ?_⟩⟩
  · rw [assertReset_eq, hqueue, hcount]
  · rw [← hout]
    exact hdrawn h0
  · exact (messageWork_abandonCommand u).out.read_eq ha
  · have hsame : abandonCommand u = u := abandonCommand_of_outReach_zero fun c i hr hd =>
      outReach_of_not_message (hother c i hr hd).1 (hother c i hr hd).2 u
    have houtBuf : (abandonCommand u).outBuf = u.outBuf := by rw [hsame]
    have hfresh : (abandonCommand u).fresh = u.fresh := by rw [hsame]
    exact ⟨houtBuf, hfresh⟩
  · rw [← hout] at ha
    exact read_abandonCommand_inside (s := u) hr hd ha
  · rw [← hout] at ha
    exact read_abandonCommand_outside (s := u) hr hd ha

end Sys2Proof.Machine
end
